-- ==== Sys2Proof/Word.lean ====
section
/-! DEFINITION. The two plain types everything is built from: the byte, and the index of a general-purpose register. -/

namespace Sys2Proof

/-- The only datum of the machine (00_scope.md R6): eight bits, unsigned. Registers, memory bytes, addresses,
`pc`, `ir` and `fl` are all of this width (R5), and arithmetic on it wraps modulo 256. -/
abbrev Byte := BitVec 8

/-- The index of a general-purpose register, 0 to 7 (10_state.md R21). -/
abbrev RegIdx := Fin 8

end Sys2Proof
end

