-- ==== Sys2Proof/Config.lean ====
section
/-! DEFINITION. The parameters of the hardware (00_scope.md R5): the fixed ones as constants, the two open ones
(the opcode map and what a register byte above 7 does) as the fields of `Config`. The spec's default of the two
stands beside the decoder (`Config.standard` in Sys2Proof/Decode.lean). -/

namespace Sys2Proof

/-- The fifteen mnemonics (00_scope.md R1), in the order of the source's instruction table. -/
inductive Mnemonic where
  | nop | hlt | ldi | prn | add | mul | and | cmp | push | pop | call | ret | jmp | jeq | jne
  deriving DecidableEq, Repr

/-- All mnemonics, in table order. -/
def Mnemonic.all : List Mnemonic :=
  [.nop, .hlt, .ldi, .prn, .add, .mul, .and, .cmp, .push, .pop, .call, .ret, .jmp, .jeq, .jne]

/-- The four formats (30_encoding.md R83). -/
inductive Format where
  /-- The opcode byte alone. -/
  | f0
  /-- The opcode byte and a register byte. -/
  | f1r
  /-- The opcode byte and two register bytes. -/
  | f2rr
  /-- The opcode byte, a register byte and an immediate byte. -/
  | f2ri
  deriving DecidableEq, Repr

/-- How many operand bytes a format has (30_encoding.md R83). -/
def Format.operandCount : Format → Nat
  | .f0 => 0
  | .f1r => 1
  | .f2rr => 2
  | .f2ri => 2

/-- The format of each instruction (30_encoding.md R83). -/
def Mnemonic.format : Mnemonic → Format
  | .nop | .hlt | .ret => .f0
  | .prn | .push | .pop | .call | .jmp | .jeq | .jne => .f1r
  | .add | .mul | .and | .cmp => .f2rr
  | .ldi => .f2ri

/-- The opcode map `OPMAP`: the byte of each mnemonic (30_encoding.md R86). -/
abbrev OpMap := Mnemonic → Byte

/-- The parameter `REGIDX_MODE`: what a register byte above 7 does (30_encoding.md R84). -/
inductive RegIdxMode where
  /-- The step ends in the `IllegalOperand` fault. The spec's default. -/
  | fault
  /-- Bits 7:3 are ignored. -/
  | mask3
  deriving DecidableEq, Repr

/-- The two open parameters of the hardware; no step changes them (10_state.md R38). -/
structure Config where
  opmap : OpMap
  regIdxMode : RegIdxMode

namespace Config

/-- `MEM_SIZE` (00_scope.md R5; 92_eei_decisions.md D1). -/
def memSize : Nat := 256

/-- `SP_INDEX` (00_scope.md R5): the general-purpose register that is the stack pointer. -/
def spIndex : RegIdx := 7

/-- `PC_RESET` (00_scope.md R5). -/
def pcReset : Byte := 0

/-- `SP_RESET` (00_scope.md R5). -/
def spReset : Byte := 0xF3

/-- `FL_EQ`: the position of the `EQ` bit in the flags register (10_state.md R29). -/
def flEq : Nat := 0

/-- `FL_GT` (10_state.md R29): reserved, written by no instruction. -/
def flGt : Nat := 1

/-- `FL_LT` (10_state.md R29): reserved, written by no instruction. -/
def flLt : Nat := 2

end Config

end Sys2Proof
end

