-- ==== Sys2Proof/Syntax.lean ====
section
/-! DEFINITION. The instruction set as syntax: one constructor for each of the fifteen instructions
(00_scope.md R1), with its operands (30_encoding.md R83). -/

namespace Sys2Proof

/-- One instruction with its operands. A register operand is an index 0 to 7, the only values a legal register byte
has (30_encoding.md R84); the immediate of `ldi` is any byte (R85). Bytes of the over-read that are no operand are
not part of the instruction (R91). -/
inductive Instr where
  /-- NOP, 41_system.md R140. -/
  | nop
  /-- HLT, 41_system.md R141. -/
  | hlt
  /-- LDI reg, imm8: 42_load_output.md R150. -/
  | ldi (ra : RegIdx) (imm : Byte)
  /-- PRN reg: 42_load_output.md R151. -/
  | prn (ra : RegIdx)
  /-- ADD regA, regB: 43_alu.md R160. -/
  | add (ra rb : RegIdx)
  /-- MUL regA, regB: 43_alu.md R161. -/
  | mul (ra rb : RegIdx)
  /-- AND regA, regB: 43_alu.md R162. -/
  | and (ra rb : RegIdx)
  /-- CMP regA, regB: 43_alu.md R163. -/
  | cmp (ra rb : RegIdx)
  /-- PUSH reg: 44_stack.md R180. -/
  | push (ra : RegIdx)
  /-- POP reg: 44_stack.md R181. -/
  | pop (ra : RegIdx)
  /-- CALL reg: 45_control.md R190. -/
  | call (ra : RegIdx)
  /-- RET, 45_control.md R191. -/
  | ret
  /-- JMP reg: 45_control.md R192. -/
  | jmp (ra : RegIdx)
  /-- JEQ reg: 45_control.md R193. -/
  | jeq (ra : RegIdx)
  /-- JNE reg: 45_control.md R194. -/
  | jne (ra : RegIdx)
  deriving DecidableEq, Repr

/-- The mnemonic of an instruction. -/
def Instr.mnemonic : Instr → Mnemonic
  | .nop => .nop
  | .hlt => .hlt
  | .ldi _ _ => .ldi
  | .prn _ => .prn
  | .add _ _ => .add
  | .mul _ _ => .mul
  | .and _ _ => .and
  | .cmp _ _ => .cmp
  | .push _ => .push
  | .pop _ => .pop
  | .call _ => .call
  | .ret => .ret
  | .jmp _ => .jmp
  | .jeq _ => .jeq
  | .jne _ => .jne

end Sys2Proof
end

