-- ==== Sys2Proof/WellFormed.lean ====
section
/-! DEFINITION. The well-formedness checks: of a register byte (30_encoding.md R84), of an opcode map (R86), and of an
instruction under a map (R82). That a register index is 0 to 7 is carried by the type of the operand, so no term of
`Instr` can break it. -/

namespace Sys2Proof

/-- A byte in a register position is well formed when its bits 7:3 are zero (30_encoding.md R84). -/
def regByteOk (b : Byte) : Bool := b >>> 3 == 0

/-- Constraint (b) of 30_encoding.md R86 at one mnemonic: bits 7:6 of its byte are its operand count. -/
def OpMap.countAgrees (om : OpMap) (m : Mnemonic) : Bool :=
  (om m >>> 6).toNat == m.format.operandCount

/-- Constraint (b) of 30_encoding.md R86. -/
def OpMap.countsAgree (om : OpMap) : Bool := Mnemonic.all.all (OpMap.countAgrees om)

/-- Constraint (a) of 30_encoding.md R86: the fifteen bytes are distinct. -/
def OpMap.distinct (om : OpMap) : Bool :=
  Mnemonic.all.all fun m => Mnemonic.all.all fun n => m == n || om m != om n

/-- An admissible opcode map, as a check that can be run (30_encoding.md R86). -/
def OpMap.admissible (om : OpMap) : Bool := om.distinct && om.countsAgree

/-- An admissible opcode map, as claims use it (30_encoding.md R86). `OpMap.admissible_iff` of Sys2Proof/Laws/Decode.lean
says that it is the check. -/
structure OpMap.Admissible (om : OpMap) : Prop where
  distinct : ∀ m n : Mnemonic, om m = om n → m = n
  countAgrees : ∀ m : Mnemonic, (om m >>> 6).toNat = m.format.operandCount

/-- An instruction is well formed under a map when the length read off its opcode byte is its true length
(30_encoding.md R82: "For this to give the true length, every opcode's `nops` must equal the number of operands its
instruction has"). -/
def Instr.wellFormed (om : OpMap) (i : Instr) : Bool := OpMap.countAgrees om i.mnemonic

end Sys2Proof
end

