-- ==== Sys2Proof/Decode.lean ====
section
/-! DEFINITION. The default opcode map, the decoder, the encoder and the printed form of an instruction
(30_encoding.md). Decoding is total on any bytes and rejects by name; the encoder is written from the same map. -/

namespace Sys2Proof

/-! ### The default parameters -/

/-- The default opcode map (30_encoding.md R87, the spec's decision D3; log 1). -/
def OpMap.standard : OpMap
  | .nop  => 0b00000000
  | .hlt  => 0b00000001
  | .ldi  => 0b10000010
  | .prn  => 0b01000011
  | .add  => 0b10010100
  | .mul  => 0b10010101
  | .and  => 0b10010110
  | .cmp  => 0b10110111
  | .push => 0b01001000
  | .pop  => 0b01001001
  | .call => 0b01001010
  | .ret  => 0b00001011
  | .jmp  => 0b01001100
  | .jeq  => 0b01001101
  | .jne  => 0b01001110

/-- The spec's default of both open parameters (00_scope.md R5). DESIGN CHOICE of the spec (D3, D4): unsafe for a block
built with another map (log 1), safe for the register bytes (log 2). -/
def Config.standard : Config where
  opmap := OpMap.standard
  regIdxMode := .fault

/-! ### Fields -/

/-- The length of an instruction, from its opcode byte alone: `((opcode >> 6) & 0b11) + 1` (30_encoding.md R82). -/
def instrLength (op : Byte) : Byte := ((op >>> 6) &&& 0b11) + 1

/-- `b[2:0]`, the register index in a register byte (30_encoding.md R84). -/
def regIndex (b : Byte) : RegIdx := ⟨b.toNat % 8, Nat.mod_lt _ (by decide)⟩

/-- `Reg(b)` (30_encoding.md R84); `none` is its `IllegalOperand` case. -/
def regOperand (mode : RegIdxMode) (b : Byte) : Option RegIdx :=
  if regByteOk b then some (regIndex b)
  else match mode with
    | .mask3 => some (regIndex b)
    | .fault => none

/-! ### Decoding -/

/-- `Decode(byte)`: the mnemonic whose byte in the map equals the byte, or none (30_encoding.md R88). -/
def decodeOpcode (om : OpMap) (op : Byte) : Option Mnemonic :=
  Mnemonic.all.find? fun m => om m == op

/-- An instruction with one register operand, if its byte is legal. -/
def withReg (mode : RegIdxMode) (a : Byte) (f : RegIdx → Instr) : Option Instr :=
  (regOperand mode a).map f

/-- An instruction with two register operands, if both bytes are legal. -/
def withRegs (mode : RegIdxMode) (a b : Byte) (f : RegIdx → RegIdx → Instr) : Option Instr :=
  match regOperand mode a, regOperand mode b with
  | some ra, some rb => some (f ra rb)
  | _, _ => none

/-- The instruction with this mnemonic and these operand bytes. Every byte in a register position passes through
`Reg`, whatever the instruction would do with it; no other byte is checked (40_instruction_cycle.md R115). -/
def instrOf (mode : RegIdxMode) (m : Mnemonic) (a b : Byte) : Option Instr :=
  match m with
  | .nop  => some .nop
  | .hlt  => some .hlt
  | .ldi  => withReg mode a fun ra => .ldi ra b
  | .prn  => withReg mode a .prn
  | .add  => withRegs mode a b .add
  | .mul  => withRegs mode a b .mul
  | .and  => withRegs mode a b .and
  | .cmp  => withRegs mode a b .cmp
  | .push => withReg mode a .push
  | .pop  => withReg mode a .pop
  | .call => withReg mode a .call
  | .ret  => some .ret
  | .jmp  => withReg mode a .jmp
  | .jeq  => withReg mode a .jeq
  | .jne  => withReg mode a .jne

/-- What decoding answers. -/
inductive Decoded where
  /-- A legal instruction. -/
  | instr (i : Instr)
  /-- No mnemonic has the opcode byte (30_encoding.md R89). -/
  | illegalOpcode
  /-- The opcode is legal and a register byte is not (30_encoding.md R84). -/
  | illegalOperand
  deriving DecidableEq, Repr

/-- The instruction, where there is one. -/
def Decoded.toOption : Decoded → Option Instr
  | .instr i => some i
  | .illegalOpcode => none
  | .illegalOperand => none

/-- Decoding of an opcode byte and the two bytes after it: total on any bytes. The opcode is decided first, the
register bytes only for a legal opcode (40_instruction_cycle.md R111, R115; 60_exceptions.md R218). -/
def decode (cfg : Config) (op a b : Byte) : Decoded :=
  match decodeOpcode cfg.opmap op with
  | none => .illegalOpcode
  | some m =>
    match instrOf cfg.regIdxMode m a b with
    | none => .illegalOperand
    | some i => .instr i

/-- Decoding of the instruction at the start of a list of bytes. Bytes past the end of the list read 0, as memory
that nobody has written does (20_memory.md R70); an instruction at most looks at three bytes (30_encoding.md R80). -/
def decodeBytes (cfg : Config) (bytes : List Byte) : Decoded :=
  decode cfg (bytes.getD 0 0) (bytes.getD 1 0) (bytes.getD 2 0)

/-! ### Encoding -/

/-- The register byte of an index: `00000rrr` (30_encoding.md R83). -/
def regByte (r : RegIdx) : Byte := BitVec.ofNat 8 r.val

/-- The operand bytes of an instruction, operand A first (30_encoding.md R83, R92). -/
def Instr.operandBytes : Instr → List Byte
  | .nop => []
  | .hlt => []
  | .ldi ra imm => [regByte ra, imm]
  | .prn ra => [regByte ra]
  | .add ra rb => [regByte ra, regByte rb]
  | .mul ra rb => [regByte ra, regByte rb]
  | .and ra rb => [regByte ra, regByte rb]
  | .cmp ra rb => [regByte ra, regByte rb]
  | .push ra => [regByte ra]
  | .pop ra => [regByte ra]
  | .call ra => [regByte ra]
  | .ret => []
  | .jmp ra => [regByte ra]
  | .jeq ra => [regByte ra]
  | .jne ra => [regByte ra]

/-- The bytes of an instruction under a configuration, at ascending addresses (30_encoding.md R80). -/
def encodeWith (cfg : Config) (i : Instr) : List Byte := cfg.opmap i.mnemonic :: i.operandBytes

/-- The bytes of an instruction under the default map. -/
def encode (i : Instr) : List Byte := encodeWith Config.standard i

/-! ### Table words -/

/-- Byte `k` of an instruction whose bits are numbered as spec/opcode_table.json numbers them: bit 0 is the least
significant bit of the first byte, the next byte's bits count on from it. Bits from `nbits` up are 0. -/
def tableByte (nbits w k : Nat) : Byte := BitVec.ofNat 8 ((w % 2 ^ nbits) >>> (8 * k))

/-- The instruction the decoder reads, under the default parameters, from a table word (log 18). -/
def decodeTableWord (nbits w : Nat) : Option Instr :=
  (decode Config.standard (tableByte nbits w 0) (tableByte nbits w 1) (tableByte nbits w 2)).toOption

/-! ### The printed form -/

/-- A register's name: `R0` to `R7` (30_encoding.md R92). -/
def regName (r : RegIdx) : String := "R" ++ toString r.val

/-- The assembly form of an instruction, immediates in decimal (30_encoding.md R92). Notation only: nothing in the
machine uses it. -/
def Instr.render : Instr → String
  | .nop => "NOP"
  | .hlt => "HLT"
  | .ldi ra imm => "LDI " ++ regName ra ++ ", " ++ toString imm.toNat
  | .prn ra => "PRN " ++ regName ra
  | .add ra rb => "ADD " ++ regName ra ++ ", " ++ regName rb
  | .mul ra rb => "MUL " ++ regName ra ++ ", " ++ regName rb
  | .and ra rb => "AND " ++ regName ra ++ ", " ++ regName rb
  | .cmp ra rb => "CMP " ++ regName ra ++ ", " ++ regName rb
  | .push ra => "PUSH " ++ regName ra
  | .pop ra => "POP " ++ regName ra
  | .call ra => "CALL " ++ regName ra
  | .ret => "RET"
  | .jmp ra => "JMP " ++ regName ra
  | .jeq ra => "JEQ " ++ regName ra
  | .jne ra => "JNE " ++ regName ra

end Sys2Proof
end

