-- ==== Sys2Proof/Machine/State.lean ====
section
/-! DEFINITION. The state of the machine (10_state.md R20: "The complete state of the machine is the following, and
nothing else"), its reset value (R37), one update for each field, and the two reason types of the host's interface. -/

namespace Sys2Proof.Machine

/-- The run state (10_state.md R32). -/
inductive RunState where
  | running
  | halted
  deriving DecidableEq, Repr

/-- The fault latch and the record each fault keeps (10_state.md R33; 60_exceptions.md R210). -/
inductive FaultLatch where
  /-- No fault: the value after reset and in every run that has not faulted. -/
  | none
  /-- The fetched byte is in no row of the opcode map (60_exceptions.md R211): its address and the byte. -/
  | illegalOpcode (pc ir : Byte)
  /-- A memory access outside memory (60_exceptions.md R212): the address. Never written in this hardware. -/
  | addressRange (address : Nat)
  /-- A register byte above 7 (60_exceptions.md R213): the opcode's address, the opcode and both operand bytes. -/
  | illegalOperand (pc ir a b : Byte)
  deriving DecidableEq, Repr

/-- Memory: the cells that hold something else than what an unlisted address reads as, by rising address. -/
abbrev Memory := List Host.Cell

/-- The state of the machine (10_state.md R20). Nothing here is the model's own. -/
@[ext]
structure State where
  /-- `x[0]` .. `x[7]` (R21); `x[7]` is the stack pointer (R22). -/
  regs : Vector Byte 8
  /-- The program counter (R25). -/
  pc : Byte
  /-- The instruction register (R28). -/
  ir : Byte
  /-- The flags register, all eight bits (R29, R31). -/
  fl : Byte
  /-- The memory (R35). -/
  mem : Memory
  /-- The run state (R32). -/
  run : RunState
  /-- The fault latch (R33). -/
  fault : FaultLatch
  /-- The bytes emitted since reset, oldest first (R34). -/
  out : List Byte
  deriving DecidableEq, Repr

namespace State

/-- The machine right after reset (10_state.md R37; 70_reset_and_hazards.md R240). Every value is the spec's; those of
`ir`, `fl`, `fault` and `out` are its decision D9 (log 7), zero memory its D20 (log 8). -/
def reset : State where
  regs := #v[0, 0, 0, 0, 0, 0, 0, Config.spReset]
  pc := Config.pcReset
  ir := 0
  fl := 0
  mem := []
  run := .running
  fault := .none
  out := []

/-! One update for each field; their projections are in Sys2Proof/Laws/State.lean. -/

def withRegs (s : State) (v : Vector Byte 8) : State := { s with regs := v }
def withPc (s : State) (v : Byte) : State := { s with pc := v }
def withIr (s : State) (v : Byte) : State := { s with ir := v }
def withFl (s : State) (v : Byte) : State := { s with fl := v }
def withMem (s : State) (v : Memory) : State := { s with mem := v }
def withRun (s : State) (v : RunState) : State := { s with run := v }
def withFault (s : State) (v : FaultLatch) : State := { s with fault := v }
def withOut (s : State) (v : List Byte) : State := { s with out := v }

end State

/-- The reasons a step could stop the model. The two faults the spec's machine takes are not among them: the spec gives
the state they leave, so they are NEXT states with the latch set (60_exceptions.md R215; log 6). -/
inductive Fault where
  /-- A memory access outside memory (60_exceptions.md R212). No definition raises it, because every address is eight
  bits wide and memory has 256 bytes (20_memory.md R55): the name the spec keeps for the condition, and dead. Safe: it
  would stop the model where nothing is said. -/
  | addressRange (address : Nat)
  deriving DecidableEq, Repr

/-- The reasons an instruction could be without a meaning. -/
inductive Refusal where
  /-- An instruction of the table without a meaning. Raised by no arm of `exec`: all fifteen have theirs. Safe. -/
  | notModelled (mnemonic : String)
  deriving DecidableEq, Repr

/-- The three outcomes of a step of this machine. -/
abbrev Result := Host.Outcome State Fault Refusal

end Sys2Proof.Machine
end

