-- ==== Sys2Proof/Machine/Ops.lean ====
section
/-! DEFINITION. The named operations over memory, registers and the program counter, the stack primitives, the output
primitive, and the taking of a fault: everything the meanings are built from. -/

namespace Sys2Proof.Machine

/-! ### Memory as data -/

/-- What an address that no cell lists reads as: 0 (20_memory.md R70; the spec's decision D20, log 8). -/
def Memory.unlisted : Byte := 0

/-- The byte at an address. -/
def Memory.read : Memory → Nat → Byte
  | [], _ => Memory.unlisted
  | (k, w) :: rest, a => if k = a then w else Memory.read rest a

/-- The cells of every other address. -/
def Memory.erase : Memory → Nat → Memory
  | [], _ => []
  | (k, w) :: rest, a => if k = a then Memory.erase rest a else (k, w) :: Memory.erase rest a

/-- One more cell, before the first cell of a higher address. -/
def Memory.insert : Memory → Nat → Byte → Memory
  | [], a, v => [(a, v)]
  | (k, w) :: rest, a, v => if a < k then (a, v) :: (k, w) :: rest else (k, w) :: Memory.insert rest a v

/-- A byte stored at an address. A byte that an unlisted address reads as anyway is not listed. -/
def Memory.write (m : Memory) (a : Nat) (v : Byte) : Memory :=
  if v = Memory.unlisted then Memory.erase m a else Memory.insert (Memory.erase m a) a v

/-- The canonical form from an address on: addresses strictly rising and inside memory, no cell that an unlisted
address already reads as. -/
def Memory.wfFrom : Nat → Memory → Bool
  | _, [] => true
  | low, (k, w) :: rest =>
    decide (low ≤ k) && decide (k < Config.memSize) && w != Memory.unlisted && Memory.wfFrom (k + 1) rest

/-- The canonical form: equal memories are equal data. -/
def Memory.wf (m : Memory) : Bool := Memory.wfFrom 0 m

/-! ### Memory and registers of a state -/

/-- `MemRead(addr, 1)` (20_memory.md R52). An address is eight bits, so it is in range by construction (R54, R55). -/
def State.readMem (s : State) (addr : Byte) : Byte := Memory.read s.mem addr.toNat

/-- `MemWrite(addr, 1, v)` (20_memory.md R53). -/
def State.writeMem (s : State) (addr v : Byte) : State := s.withMem (Memory.write s.mem addr.toNat v)

/-- `x[r]` (10_state.md R21). -/
def State.readReg (s : State) (r : RegIdx) : Byte := s.regs.get r

/-- `x[r] <- v` (10_state.md R21, R23). No register is hardwired. -/
def State.writeReg (s : State) (r : RegIdx) (v : Byte) : State := s.withRegs (s.regs.set r.val v r.isLt)

/-- `sp`, another spelling of `x[7]` (00_scope.md R7; 10_state.md R22). -/
def State.sp (s : State) : Byte := s.readReg Config.spIndex

/-! ### Stack, output, run state -/

/-- `Push(v)`: the decrement comes first (40_instruction_cycle.md R120). -/
def State.push (s : State) (v : Byte) : State :=
  let s' := s.writeReg Config.spIndex (s.sp - 1)
  s'.writeMem s'.sp v

/-- `Pop()`: the byte read at the old stack pointer, and the state with the pointer moved (40_instruction_cycle.md
R121). -/
def State.pop (s : State) : Byte × State :=
  (s.readMem s.sp, s.writeReg Config.spIndex (s.sp + 1))

/-- `Emit(v)`: one more value in the output history; never blocks or fails (42_load_output.md R152; log 9). -/
def State.emit (s : State) (v : Byte) : State := s.withOut (s.out ++ [v])

/-- `run <- Halted` (41_system.md R141). -/
def State.halt (s : State) : State := s.withRun .halted

/-! ### The end of a handler -/

/-- The two outcomes of a handler (00_scope.md R8). -/
inductive Flow where
  /-- Fall through: the PC advances by the instruction's length. -/
  | next
  /-- Branch override: the PC becomes the target. -/
  | jump (target : Byte)
  deriving DecidableEq, Repr

/-- The PC-advance phase (40_instruction_cycle.md R117). The length is read off `ir`; the sum wraps modulo 256
(10_state.md R27, the spec's decision D2, log 3). -/
def State.advancePc (s : State) : Flow → State
  | .next => s.withPc (s.pc + instrLength s.ir)
  | .jump target => s.withPc target

/-- A handler that ran: its state, after the PC-advance phase. -/
def complete (s : State) (flow : Flow) : Result := .next (s.advancePc flow)

/-! ### Faults and the halted step -/

/-- Taking a fault, for both classes that occur: the machine halts with the record latched. Nothing is saved, no
control is transferred and the PC is not advanced (60_exceptions.md R211, R213, R215; log 6). -/
def State.raise (s : State) (record : FaultLatch) : State := (s.withRun .halted).withFault record

/-- A step requested while `run = Halted` changes nothing (40_instruction_cycle.md R122; log 5). There is no return
from a fault (60_exceptions.md R217). -/
def State.haltedStep (s : State) : State := s

end Sys2Proof.Machine
end

