-- ==== Sys2Proof/Machine/Flags.lean ====
section
/-! DEFINITION. The flag-update primitive, the test of `EQ`, and the ALU function (40_instruction_cycle.md R118, R119). -/

namespace Sys2Proof.Machine

/-- `SetFlag(bit, cond)` on a flags byte: an OR or an AND-NOT, never an overwrite (40_instruction_cycle.md R119). -/
def setFlagByte (fl : Byte) (bit : Nat) (cond : Bool) : Byte :=
  if cond then fl ||| ((1 : Byte) <<< bit) else fl &&& ~~~((1 : Byte) <<< bit)

/-- `SetFlag(bit, cond)` (40_instruction_cycle.md R119). -/
def State.setFlag (s : State) (bit : Nat) (cond : Bool) : State := s.withFl (setFlagByte s.fl bit cond)

/-- Whether `EQ` is set: bit 0 of `fl` alone (45_control.md R193, R194; 90_conflicts.md C6). -/
def State.eqFlag (s : State) : Bool := s.fl.getLsbD Config.flEq

/-- The operation of the ALU, implied by the opcode and without an encoding (40_instruction_cycle.md R118; D19). -/
inductive AluOp where
  | add | mul | and | cmp
  deriving DecidableEq, Repr

/-- What the ALU function answers: a byte, or a flag update (40_instruction_cycle.md R118). -/
inductive AluResult where
  | value (v : Byte)
  | flag (bit : Nat) (cond : Bool)
  deriving DecidableEq, Repr

/-- `Alu(op, a, b)`, a pure function of two register values (40_instruction_cycle.md R118; 43_alu.md R164). -/
def alu (op : AluOp) (a b : Byte) : AluResult :=
  match op with
  | .add => .value (a + b)
  | .mul => .value (a * b)
  | .and => .value (a &&& b)
  | .cmp => .flag Config.flEq (a == b)

/-- An ALU instruction's effect: both registers are read, then the result goes to register A or to the flag
(43_alu.md R160 to R163, R165). -/
def State.applyAlu (s : State) (op : AluOp) (ra rb : RegIdx) : State :=
  match alu op (s.readReg ra) (s.readReg rb) with
  | .value v => s.writeReg ra v
  | .flag bit cond => s.setFlag bit cond

end Sys2Proof.Machine
end

