-- ==== Sys2Proof/Machine/Alu.lean ====
section
/-! DEFINITION. The ALU instructions ADD, MUL, AND and CMP (43_alu.md). -/

namespace Sys2Proof.Machine

/-- ADD (43_alu.md R160). -/
def execAdd (ra rb : RegIdx) (s : State) : Result := complete (s.applyAlu .add ra rb) .next

/-- MUL (43_alu.md R161). -/
def execMul (ra rb : RegIdx) (s : State) : Result := complete (s.applyAlu .mul ra rb) .next

/-- AND (43_alu.md R162). -/
def execAnd (ra rb : RegIdx) (s : State) : Result := complete (s.applyAlu .and ra rb) .next

/-- CMP (43_alu.md R163): no register is written. -/
def execCmp (ra rb : RegIdx) (s : State) : Result := complete (s.applyAlu .cmp ra rb) .next

end Sys2Proof.Machine
end

