-- ==== Sys2Proof/Machine/Control.lean ====
section
/-! DEFINITION. The control transfers CALL, RET, JMP, JEQ and JNE (45_control.md). -/

namespace Sys2Proof.Machine

/-- CALL (45_control.md R190): `pc` is still the address of the CALL; the target is read after the push (log 4). -/
def execCall (ra : RegIdx) (s : State) : Result :=
  let pushed := s.push (s.pc + 2)
  complete pushed (.jump (pushed.readReg ra))

/-- RET (45_control.md R191). -/
def execRet (s : State) : Result := complete s.pop.2 (.jump s.pop.1)

/-- JMP (45_control.md R192). -/
def execJmp (ra : RegIdx) (s : State) : Result := complete s (.jump (s.readReg ra))

/-- JEQ (45_control.md R193). -/
def execJeq (ra : RegIdx) (s : State) : Result :=
  complete s (if s.eqFlag then .jump (s.readReg ra) else .next)

/-- JNE (45_control.md R194). -/
def execJne (ra : RegIdx) (s : State) : Result :=
  complete s (if s.eqFlag then .next else .jump (s.readReg ra))

end Sys2Proof.Machine
end

