-- ==== Sys2Proof/Machine/LoadOutput.lean ====
section
/-! DEFINITION. Load immediate and output, LDI and PRN (42_load_output.md). -/

namespace Sys2Proof.Machine

/-- LDI (42_load_output.md R150): the immediate as it is (30_encoding.md R85). -/
def execLdi (ra : RegIdx) (imm : Byte) (s : State) : Result := complete (s.writeReg ra imm) .next

/-- PRN (42_load_output.md R151). -/
def execPrn (ra : RegIdx) (s : State) : Result := complete (s.emit (s.readReg ra)) .next

end Sys2Proof.Machine
end

