-- ==== Sys2Proof/Machine/Stack.lean ====
section
/-! DEFINITION. The stack instructions PUSH and POP (44_stack.md). -/

namespace Sys2Proof.Machine

/-- PUSH (44_stack.md R180): the register is read before the stack pointer moves (log 4). -/
def execPush (ra : RegIdx) (s : State) : Result := complete (s.push (s.readReg ra)) .next

/-- POP (44_stack.md R181): the register is written after the stack pointer has moved (log 4). -/
def execPop (ra : RegIdx) (s : State) : Result := complete (s.pop.2.writeReg ra s.pop.1) .next

end Sys2Proof.Machine
end

