-- ==== Sys2Proof/Machine/System.lean ====
section
/-! DEFINITION. The system instructions NOP and HLT (41_system.md). -/

namespace Sys2Proof.Machine

/-- NOP (41_system.md R140): no effect; the PC advances. -/
def execNop (s : State) : Result := complete s .next

/-- HLT (41_system.md R141): the machine halts and the PC still advances. -/
def execHlt (s : State) : Result := complete s.halt .next

end Sys2Proof.Machine
end

