-- ==== Sys2Proof/Machine/Operands.lean ====
section
/-! DEFINITION. Fetching an instruction's bytes and decoding them at the program counter (40_instruction_cycle.md R111
phases 1 to 3b), and the two faults those phases can raise. -/

namespace Sys2Proof.Machine

/-- Phase 1: `ir <- MemRead(pc, 1)`, and nothing else (40_instruction_cycle.md R112). -/
def State.fetch (s : State) : State := s.withIr (s.readMem s.pc)

/-- Phase 3, operand byte A: `MemRead((pc + 1) mod 256, 1)` (40_instruction_cycle.md R114; 20_memory.md R54; log 3). -/
def State.operandA (s : State) : Byte := s.readMem (s.pc + 1)

/-- Phase 3, operand byte B: `MemRead((pc + 2) mod 256, 1)`, read for every legal opcode (40_instruction_cycle.md R114;
log 14). -/
def State.operandB (s : State) : Byte := s.readMem (s.pc + 2)

/-- Phases 2, 3 and 3b on a fetched state: the opcode in `ir`, then the register bytes (40_instruction_cycle.md R113,
R115; log 16). -/
def State.decoded (cfg : Config) (s : State) : Decoded := decode cfg s.ir s.operandA s.operandB

/-- `raise IllegalOpcode(pc, ir)` (60_exceptions.md R211). -/
def State.raiseIllegalOpcode (s : State) : State := s.raise (.illegalOpcode s.pc s.ir)

/-- `raise IllegalOperand(pc, ir, a, b)` (60_exceptions.md R213). The record holds both bytes after the opcode, the
over-read one too (R218; 95_test_vectors.md V68). -/
def State.raiseIllegalOperand (s : State) : State :=
  s.raise (.illegalOperand s.pc s.ir s.operandA s.operandB)

end Sys2Proof.Machine
end

