-- ==== Sys2Proof/Machine/Step.lean ====
section
/-! DEFINITION. The step (40_instruction_cycle.md R110, R111), for any parameters and for the spec's defaults, and the
placing of one instruction where the next step fetches it. -/

namespace Sys2Proof.Machine

/-- A step in the `Running` state, from its fetched state on (40_instruction_cycle.md R111 phases 2 to 5). -/
def runFetched (cfg : Config) (s : State) : Host.Outcome State Fault Refusal :=
  match s.decoded cfg with
  | .illegalOpcode => .next s.raiseIllegalOpcode
  | .illegalOperand => .next s.raiseIllegalOperand
  | .instr i => exec i s

/-- One step of the machine with the given parameters (40_instruction_cycle.md R110, R111, R122). -/
def stepWith (cfg : Config) (s : State) : Host.Outcome State Fault Refusal :=
  match s.run with
  | .halted => .next s.haltedStep
  | .running => runFetched cfg s.fetch

/-- One step of the machine with the spec's default parameters. -/
def step : State → Host.Outcome State Fault Refusal := stepWith Config.standard

/-- The state with one instruction, given as a table word, stored at the program counter: its three bytes at `pc`,
`pc + 1` and `pc + 2`, and the machine running with no fault, as a fetch needs it (logs 10 and 18). -/
def State.withFetchWord (s : State) (nbits w : Nat) : State :=
  let stored := ((s.writeMem s.pc (tableByte nbits w 0)).writeMem (s.pc + 1) (tableByte nbits w 1)).writeMem (s.pc + 2)
    (tableByte nbits w 2)
  (stored.withRun .running).withFault .none

end Sys2Proof.Machine
end

