-- ==== Sys2Proof/Machine/Ports.lean ====
section
/-! DEFINITION. The ports of the block at transaction level (10_state.md R39): status, inspection, the memory
transactions of a step, and the events that reach the machine from outside. -/

namespace Sys2Proof.Machine

/-! ### Status -/

/-- The kind of a fault, as the status port shows it (60_exceptions.md R221). -/
inductive FaultKind where
  | illegalOpcode | addressRange | illegalOperand
  deriving DecidableEq, Repr

/-- The code of a latched fault (60_exceptions.md R210). -/
def FaultLatch.code : FaultLatch → Nat
  | .none => 0
  | .illegalOpcode _ _ => 1
  | .addressRange _ => 2
  | .illegalOperand _ _ _ _ => 3

/-- The kind of a latched fault, if there is one. -/
def FaultLatch.kind : FaultLatch → Option FaultKind
  | .none => Option.none
  | .illegalOpcode _ _ => some .illegalOpcode
  | .addressRange _ => some .addressRange
  | .illegalOperand _ _ _ _ => some .illegalOperand

/-- What the `status` port shows (60_exceptions.md R221). -/
inductive Status where
  | running
  | halted
  | fault (kind : FaultKind)
  deriving DecidableEq, Repr

/-- The status, a function of the state (60_exceptions.md R221). A latched fault is shown first; the latch and
`run = Running` never meet (10_state.md R33; log 13). -/
def State.status (s : State) : Status :=
  match s.fault.kind, s.run with
  | some k, _ => .fault k
  | none, .running => .running
  | none, .halted => .halted

/-! ### Inspection -/

/-- What the `inspect` port shows (10_state.md R39). -/
structure Inspection where
  regs : Vector Byte 8
  pc : Byte
  ir : Byte
  fl : Byte
  mem : Memory
  run : RunState
  fault : FaultLatch
  deriving DecidableEq, Repr

/-- The read-only view of the state between steps (10_state.md R40; 60_exceptions.md R225). -/
def State.inspect (s : State) : Inspection :=
  { regs := s.regs, pc := s.pc, ir := s.ir, fl := s.fl, mem := s.mem, run := s.run, fault := s.fault }

/-! ### The memory port -/

/-- One transaction of the memory port (10_state.md R39, rows `mem_read` and `mem_write`). -/
inductive Access where
  | read (addr : Byte)
  | write (addr v : Byte)
  deriving DecidableEq, Repr

/-- The transactions of a handler: only the stack instructions have any (20_memory.md R58, R62). -/
def dataAccesses (i : Instr) (s : State) : List Access :=
  match i with
  | .push ra => [.write (s.sp - 1) (s.readReg ra)]
  | .call _ => [.write (s.sp - 1) (s.pc + 2)]
  | .pop _ => [.read s.sp]
  | .ret => [.read s.sp]
  | .nop => []
  | .hlt => []
  | .ldi _ _ => []
  | .prn _ => []
  | .add _ _ => []
  | .mul _ _ => []
  | .and _ _ => []
  | .cmp _ _ => []
  | .jmp _ => []
  | .jeq _ => []
  | .jne _ => []

/-- The transactions of the step taken from a state, in order (20_memory.md R58). The two operand reads come after the
decode of the opcode and before any write. -/
def accessesWith (cfg : Config) (s : State) : List Access :=
  match s.run with
  | .halted => []
  | .running =>
    match s.fetch.decoded cfg with
    | .illegalOpcode => [.read s.pc]
    | .illegalOperand => [.read s.pc, .read (s.pc + 1), .read (s.pc + 2)]
    | .instr i => [.read s.pc, .read (s.pc + 1), .read (s.pc + 2)] ++ dataAccesses i s

/-! ### Events from outside -/

/-- `poke(address, value)`: the effect of `MemWrite` and no other, performed by the loader (20_memory.md R69; log 10). -/
def State.poke (s : State) (addr v : Byte) : State := s.writeMem addr v

/-- An image poked byte by byte (70_reset_and_hazards.md R242). -/
def State.pokeAll (s : State) : List (Byte × Byte) → State
  | [] => s
  | (addr, v) :: image => (s.poke addr v).pokeAll image

/-- The events that reach the machine: its only transitions (10_state.md R39; 40_instruction_cycle.md R110). -/
inductive PortEvent where
  /-- Every piece of state to its reset value (70_reset_and_hazards.md R240; log 11). -/
  | reset
  /-- One byte from the loader (20_memory.md R69). -/
  | poke (addr v : Byte)
  /-- One step (40_instruction_cycle.md R110). -/
  | step
  deriving DecidableEq, Repr

/-- The machine's answer to an event. -/
def respond (cfg : Config) (e : PortEvent) (s : State) : Host.Outcome State Fault Refusal :=
  match e with
  | .reset => .next State.reset
  | .poke addr v => .next (s.poke addr v)
  | .step => stepWith cfg s

/-- The machine's answer to a sequence of events, the first one first. It goes on as long as the answers are next
states; no event answers anything else. -/
def respondAll (cfg : Config) : List PortEvent → State → Host.Outcome State Fault Refusal
  | [], s => .next s
  | e :: later, s =>
    match respond cfg e s with
    | .next t => respondAll cfg later t
    | .fault r => .fault r
    | .refused r => .refused r

end Sys2Proof.Machine
end

