-- ==== Sys2Proof/Safety.lean ====
section
/-! DEFINITION. The terms the claims use: what a state keeps of another, and the invariant of the machine. -/

namespace Sys2Proof.Machine

/-! ### Frames -/

/-- Every register but those listed holds the same byte in both states. -/
def RegsKeptBut (changed : List RegIdx) (s t : State) : Prop :=
  ∀ r : RegIdx, r ∉ changed → t.readReg r = s.readReg r

/-- Every byte of memory reads the same in both states. -/
def MemKept (s t : State) : Prop := ∀ a : Byte, t.readMem a = s.readMem a

/-- Every byte of memory but the one at `stored` reads the same in both states. -/
def MemKeptBut (stored : Byte) (s t : State) : Prop := ∀ a : Byte, a ≠ stored → t.readMem a = s.readMem a

/-- The run state and the fault latch are the same in both states. -/
def RunKept (s t : State) : Prop := t.run = s.run ∧ t.fault = s.fault

/-- Neither the instruction register, the run state, the fault latch nor the output history differs: what no handler
but HLT and PRN changes. -/
def ControlKept (s t : State) : Prop := t.ir = s.ir ∧ RunKept s t ∧ t.out = s.out

/-- The program counter has advanced by `n` if the instruction register holds the byte that some admissible map gives
the mnemonic (30_encoding.md R82, R86): in every step, since the fetch has put it there (40_instruction_cycle.md R112). -/
def AdvancedBy (m : Mnemonic) (n : Byte) (s t : State) : Prop :=
  ∀ om : OpMap, om.Admissible → s.ir = om m → t.pc = s.pc + n

/-! ### What an instruction reads and writes -/

/-- The registers an instruction writes: the last column of the table of 10_state.md R24. -/
def regsWritten : Instr → List RegIdx
  | .nop => []
  | .hlt => []
  | .ldi ra _ => [ra]
  | .prn _ => []
  | .add ra _ => [ra]
  | .mul ra _ => [ra]
  | .and ra _ => [ra]
  | .cmp _ _ => []
  | .push _ => [7]
  | .pop ra => [7, ra]
  | .call _ => [7]
  | .ret => [7]
  | .jmp _ => []
  | .jeq _ => []
  | .jne _ => []

/-- The registers an instruction reads, given whether `EQ` is set: the middle column of the table of 10_state.md R24. -/
def regsRead (eq : Bool) : Instr → List RegIdx
  | .nop => []
  | .hlt => []
  | .ldi _ _ => []
  | .prn ra => [ra]
  | .add ra rb => [ra, rb]
  | .mul ra rb => [ra, rb]
  | .and ra rb => [ra, rb]
  | .cmp ra rb => [ra, rb]
  | .push ra => [ra, 7]
  | .pop _ => [7]
  | .call ra => [7, ra]
  | .ret => [7]
  | .jmp ra => [ra]
  | .jeq ra => if eq then [ra] else []
  | .jne ra => if eq then [] else [ra]

/-- A control transfer: an instruction whose handler can return a jump (40_instruction_cycle.md R116). -/
def Transfers : Instr → Prop
  | .call _ | .ret | .jmp _ | .jeq _ | .jne _ => True
  | .nop | .hlt | .ldi _ _ | .prn _ | .add _ _ | .mul _ _ | .and _ _ | .cmp _ _ | .push _ | .pop _ => False

/-! ### The invariant -/

/-- The fault latch tells the truth about the state it stands in (10_state.md R33; 60_exceptions.md R210, R215): a
latched fault has halted the machine, its record holds the program counter and the instruction register as they still
stand, and those bytes do raise that fault. The out-of-range fault is never latched (60_exceptions.md R212). -/
def FaultLatch.explains (cfg : Config) (s : State) : FaultLatch → Prop
  | .none => True
  | .illegalOpcode pc ir =>
      s.run = .halted ∧ pc = s.pc ∧ ir = s.ir ∧ decodeOpcode cfg.opmap ir = Option.none
  | .addressRange _ => False
  | .illegalOperand pc ir a b =>
      s.run = .halted ∧ pc = s.pc ∧ ir = s.ir ∧ decode cfg ir a b = .illegalOperand

/-- The invariant of the machine: memory in its canonical form, a truthful fault latch, and the flag bits that no
instruction writes at zero (10_state.md R31). -/
structure State.Inv (cfg : Config) (s : State) : Prop where
  memory : Memory.wf s.mem = true
  latch : s.fault.explains cfg s
  flags : ∀ k : Nat, k ≠ 0 → s.fl.getLsbD k = false

/-- A run that ended with HLT (10_state.md R33). -/
def State.endedByHlt (s : State) : Prop := s.run = .halted ∧ s.fault = .none

/-- A run that ended in a fault (10_state.md R33). -/
def State.endedByFault (s : State) : Prop := s.run = .halted ∧ s.fault ≠ .none

end Sys2Proof.Machine
end

