-- ==== Sys2Proof/Certificates/Slice0/Obligations.lean ====
section
/-! DEFINITION. The statements for the provers, from the numbered rules of spec/. OBLIGATIONS.json lists them. -/

open Sys2Proof Sys2Proof.Machine

/-! ### Encoding and decoding -/

/-- 30_encoding.md R86, R87: the default map (the spec's decision D3, log 1) meets both constraints, and exactly its
fifteen bytes decode to an instruction. -/
def Obligations.StandardMapIsAdmissible : Prop :=
  OpMap.standard.Admissible ∧
  ∀ op : Byte, decodeOpcode OpMap.standard op ≠ none ↔
    op ∈ ([0x00, 0x01, 0x0B, 0x43, 0x48, 0x49, 0x4A, 0x4C, 0x4D, 0x4E, 0x82, 0x94, 0x95, 0x96, 0xB7] : List Byte)

/-- 30_encoding.md R92: words written out from the spec's table decode to the instructions they stand for. The opcode
bytes are the default map's (the spec's decision D3, log 1); that `82 08 01` is refused is the default of REGIDX_MODE
(decision D4, log 2). The bytes after the operands are one choice; `DecodeOfEncodeIsInstr` speaks of any. -/
def Obligations.SpecWordsDecode : Prop :=
  decode Config.standard 0x0B 0xFF 0xFF = .instr .ret ∧
  decode Config.standard 0x82 0x07 0xFA = .instr (.ldi 7 0xFA) ∧
  decode Config.standard 0x95 0x03 0x05 = .instr (.mul 3 5) ∧
  decode Config.standard 0xB7 0x06 0x01 = .instr (.cmp 6 1) ∧
  decode Config.standard 0x4A 0x02 0x99 = .instr (.call 2) ∧
  decode Config.standard 0x82 0x08 0x01 = .illegalOperand ∧
  decode Config.standard 0xA7 0x00 0x00 = .illegalOpcode

/-- 30_encoding.md R88: the lookup answers the mnemonic whose byte equals the byte, and none when no mnemonic has it.
The bytes of the map are distinct, as R86 (a) asks. -/
def Obligations.DecodeLooksUpWholeByte : Prop :=
  ∀ om : OpMap, om.Admissible → ∀ op : Byte,
    (∀ m, decodeOpcode om op = some m ↔ om m = op) ∧
    (decodeOpcode om op = none ↔ ∀ m, om m ≠ op)

/-- 30_encoding.md R89, R86: under no admissible map is a byte with an operand count of 3 an opcode. -/
def Obligations.OperandCountThreeIsIllegal : Prop :=
  ∀ (cfg : Config) (op a b : Byte), cfg.opmap.Admissible → op >>> 6 = 3 → decode cfg op a b = .illegalOpcode

/-- 30_encoding.md R84 (the spec's decision D4, log 2): when a register byte is refused, in both modes, and which index
it is read as. -/
def Obligations.RegisterByteIsChecked : Prop :=
  ∀ b : Byte,
    (∀ r, regOperand .fault b = some r ↔ b.toNat = r.val) ∧
    (regOperand .fault b = none ↔ 8 ≤ b.toNat) ∧
    (∃ r, regOperand .mask3 b = some r ∧ r.val = b.toNat % 8)

/-- Decode and encode agree: under every admissible map (the spec's decision D3, log 1) and in both modes (D4, log 2),
the bytes of an instruction, followed by any others, decode to that instruction with every operand at its value
(30_encoding.md R83, R84, R86, R88, R91). -/
def Obligations.DecodeOfEncodeIsInstr : Prop :=
  ∀ (cfg : Config) (i : Instr) (rest : List Byte), cfg.opmap.Admissible →
    decodeBytes cfg (encodeWith cfg i ++ rest) = .instr i

/-- Encode and decode agree: with the default mode (the spec's decision D4, log 2), bytes that decode to an instruction
are the bytes of that instruction and nothing else (30_encoding.md R83, R84, R88, R90). -/
def Obligations.EncodeOfDecodeIsBytes : Prop :=
  ∀ (cfg : Config) (op a b : Byte) (i : Instr), cfg.regIdxMode = .fault →
    decode cfg op a b = .instr i →
      encodeWith cfg i = [op, a, b].take (i.mnemonic.format.operandCount + 1)

/-- 30_encoding.md R82: the length is `((opcode >> 6) & 0b11) + 1`, computed from the opcode byte alone; under an
admissible map it is the number of bytes of the instruction. -/
def Obligations.LengthIsReadOffOpcode : Prop :=
  (∀ op : Byte, (instrLength op).toNat = ((op.toNat >>> 6) &&& 3) + 1) ∧
  ∀ (cfg : Config) (i : Instr), cfg.opmap.Admissible →
    (encodeWith cfg i).length = (instrLength (cfg.opmap i.mnemonic)).toNat

/-! ### Memory, registers and the primitives -/

/-- 20_memory.md R53: a byte written is read back at its address; no other byte, no register and no flag changes. -/
def Obligations.MemWriteStoresOneByte : Prop :=
  ∀ (s : State) (a v : Byte),
    (s.writeMem a v).readMem a = v ∧ MemKeptBut a s (s.writeMem a v) ∧ RegsKeptBut [] s (s.writeMem a v) ∧
    (s.writeMem a v).pc = s.pc ∧ (s.writeMem a v).fl = s.fl ∧ ControlKept s (s.writeMem a v)

/-- The memory of the model: two memories in canonical form that read the same at every address of the space are the
same data (20_memory.md R51, R70). The space is that of the spec's decision D1 (log 15); an unlisted address reads 0 by
D20 (log 8). -/
def Obligations.CanonicalMemoryIsItsBytes : Prop :=
  ∀ m m' : Memory, Memory.wf m = true → Memory.wf m' = true →
    (∀ a : Byte, Memory.read m a.toNat = Memory.read m' a.toNat) → m = m'

/-- 10_state.md R21, R23: each of the eight registers can be written with any byte and reads back what was last
written; the others, and everything else, keep their values. -/
def Obligations.RegisterReadsBackLastWrite : Prop :=
  ∀ (s : State) (r : RegIdx) (v w : Byte),
    (s.writeReg r v).readReg r = v ∧ RegsKeptBut [r] s (s.writeReg r v) ∧
    (s.writeReg r v).writeReg r w = s.writeReg r w ∧
    MemKept s (s.writeReg r v) ∧ (s.writeReg r v).pc = s.pc ∧ (s.writeReg r v).fl = s.fl ∧
    ControlKept s (s.writeReg r v)

/-- 40_instruction_cycle.md R119: the bit is set when the condition is true and cleared otherwise; every other bit and
everything else in the state is left untouched; no step writes `fl` but through it, with bit 0. -/
def Obligations.SetFlagChangesOneBit : Prop :=
  (∀ (s : State) (bit : Nat) (cond : Bool), bit < 8 →
    (∀ k : Nat, (s.setFlag bit cond).fl.getLsbD k = if k = bit then cond else s.fl.getLsbD k) ∧
    (s.setFlag bit cond).withFl s.fl = s) ∧
  (∀ (cfg : Config) (s t : State), stepWith cfg s = .next t → t.fl = s.fl ∨ ∃ c, t.fl = (s.setFlag 0 c).fl)

/-- 40_instruction_cycle.md R118: the four operations of the ALU on all bytes. ADD, MUL and AND answer a byte, CMP a
flag update of bit 0 that says whether the operands are equal. -/
def Obligations.AluComputesModulo256 : Prop :=
  ∀ a b : Byte,
    (∃ v, alu .add a b = .value v ∧ v.toNat = (a.toNat + b.toNat) % 256) ∧
    (∃ v, alu .mul a b = .value v ∧ v.toNat = (a.toNat * b.toNat) % 256) ∧
    (∃ v, alu .and a b = .value v ∧ ∀ k, v.getLsbD k = (a.getLsbD k && b.getLsbD k)) ∧
    (∃ c, alu .cmp a b = .flag 0 c ∧ (c = true ↔ a.toNat = b.toNat))

/-- 40_instruction_cycle.md R120: the decrement comes first and wraps; the byte is stored at the new stack pointer;
nothing else changes. -/
def Obligations.PushStoresBelowStackPointer : Prop :=
  ∀ (s : State) (v : Byte),
    ((s.push v).readReg 7).toNat = (s.readReg 7).toNat - 1 + (if s.readReg 7 = 0 then 255 else 0) ∧
    (s.push v).readMem ((s.push v).readReg 7) = v ∧
    RegsKeptBut [7] s (s.push v) ∧ MemKeptBut ((s.push v).readReg 7) s (s.push v) ∧
    (s.push v).pc = s.pc ∧ (s.push v).fl = s.fl ∧ ControlKept s (s.push v)

/-- 40_instruction_cycle.md R121: the byte is read at the stack pointer as it was, then the pointer is incremented and
wraps; memory and everything else is unchanged. -/
def Obligations.PopReadsAtStackPointer : Prop :=
  ∀ s : State,
    s.pop.1 = s.readMem (s.readReg 7) ∧
    (s.pop.2.readReg 7).toNat = ((s.readReg 7).toNat + 1) % 256 ∧
    RegsKeptBut [7] s s.pop.2 ∧ MemKept s s.pop.2 ∧ s.pop.2.pc = s.pc ∧ s.pop.2.fl = s.fl ∧ ControlKept s s.pop.2

/-! ### The fifteen instructions: each completes, with its result and its frame

`s` is the state after the fetch (log 12): `ir` holds the opcode byte, and the register bytes have passed the operand
check (D16, log 16). The sum that advances the program counter wraps modulo 256, the spec's decision D2 (log 3). -/

/-- 41_system.md R140: nothing changes but the program counter, which advances by 1 (D2, log 3). -/
def Obligations.NopOnlyAdvances : Prop :=
  ∀ s : State, ∃ t, exec .nop s = .next t ∧ AdvancedBy .nop 1 s t ∧
    RegsKeptBut [] s t ∧ t.fl = s.fl ∧ MemKept s t ∧ ControlKept s t

/-- 41_system.md R141: the machine halts, the latch is kept, and the program counter advances by 1 (D2, log 3). -/
def Obligations.HltHaltsAndAdvances : Prop :=
  ∀ s : State, ∃ t, exec .hlt s = .next t ∧ t.run = .halted ∧ t.fault = s.fault ∧ AdvancedBy .hlt 1 s t ∧
    RegsKeptBut [] s t ∧ t.fl = s.fl ∧ MemKept s t ∧ t.ir = s.ir ∧ t.out = s.out

/-- 42_load_output.md R150: the register receives the immediate; the program counter advances by 3 (D2, log 3). -/
def Obligations.LdiLoadsImmediate : Prop :=
  ∀ (ra : RegIdx) (imm : Byte) (s : State), ∃ t, exec (.ldi ra imm) s = .next t ∧
    t.readReg ra = imm ∧ AdvancedBy .ldi 3 s t ∧
    RegsKeptBut [ra] s t ∧ t.fl = s.fl ∧ MemKept s t ∧ ControlKept s t

/-- 42_load_output.md R151, R152: one value is emitted, after all earlier ones (D10, log 9); the program counter
advances by 2 (D2, log 3). -/
def Obligations.PrnEmitsRegister : Prop :=
  ∀ (ra : RegIdx) (s : State), ∃ t, exec (.prn ra) s = .next t ∧
    t.out = s.out ++ [s.readReg ra] ∧ AdvancedBy .prn 2 s t ∧
    RegsKeptBut [] s t ∧ t.fl = s.fl ∧ MemKept s t ∧ t.ir = s.ir ∧ RunKept s t

/-- 43_alu.md R160, R165: register A becomes the sum of the two old values, with `ra = rb` the register is doubled; the
program counter advances by 3 (D2, log 3). -/
def Obligations.AddAddsModulo256 : Prop :=
  ∀ (ra rb : RegIdx) (s : State), ∃ t, exec (.add ra rb) s = .next t ∧
    (t.readReg ra).toNat = ((s.readReg ra).toNat + (s.readReg rb).toNat) % 256 ∧ AdvancedBy .add 3 s t ∧
    RegsKeptBut [ra] s t ∧ t.fl = s.fl ∧ MemKept s t ∧ ControlKept s t

/-- 43_alu.md R161, R165: register A becomes the low byte of the product of the two old values; the program counter
advances by 3 (D2, log 3). -/
def Obligations.MulMultipliesModulo256 : Prop :=
  ∀ (ra rb : RegIdx) (s : State), ∃ t, exec (.mul ra rb) s = .next t ∧
    (t.readReg ra).toNat = ((s.readReg ra).toNat * (s.readReg rb).toNat) % 256 ∧ AdvancedBy .mul 3 s t ∧
    RegsKeptBut [ra] s t ∧ t.fl = s.fl ∧ MemKept s t ∧ ControlKept s t

/-- 43_alu.md R162, R165: register A becomes the bitwise and of the two old values; the program counter advances by 3
(D2, log 3). -/
def Obligations.AndIsBitwise : Prop :=
  ∀ (ra rb : RegIdx) (s : State), ∃ t, exec (.and ra rb) s = .next t ∧
    (∀ k : Nat, (t.readReg ra).getLsbD k = ((s.readReg ra).getLsbD k && (s.readReg rb).getLsbD k)) ∧
    AdvancedBy .and 3 s t ∧
    RegsKeptBut [ra] s t ∧ t.fl = s.fl ∧ MemKept s t ∧ ControlKept s t

/-- 43_alu.md R163: bit 0 of `fl` says whether the two values are equal, bits 7 to 1 keep theirs; no register is
written; the program counter advances by 3 (D2, log 3). -/
def Obligations.CmpWritesEqOnly : Prop :=
  ∀ (ra rb : RegIdx) (s : State), ∃ t, exec (.cmp ra rb) s = .next t ∧
    (t.fl.getLsbD 0 = true ↔ s.readReg ra = s.readReg rb) ∧
    (∀ k : Nat, k ≠ 0 → t.fl.getLsbD k = s.fl.getLsbD k) ∧ AdvancedBy .cmp 3 s t ∧
    RegsKeptBut [] s t ∧ MemKept s t ∧ ControlKept s t

/-- 44_stack.md R180: the old value of the register (`R7` too, D7, log 4) is stored at the new stack pointer; the
program counter advances by 2 (D2, log 3). -/
def Obligations.PushStoresRegister : Prop :=
  ∀ (ra : RegIdx) (s : State), ∃ t, exec (.push ra) s = .next t ∧
    t.readReg 7 = s.readReg 7 - 1 ∧ t.readMem (s.readReg 7 - 1) = s.readReg ra ∧ AdvancedBy .push 2 s t ∧
    RegsKeptBut [7] s t ∧ t.fl = s.fl ∧ MemKeptBut (s.readReg 7 - 1) s t ∧ ControlKept s t

/-- 44_stack.md R181: the register receives the byte at the old stack pointer; the pointer moves up, unless it is the
register popped into (D7, log 4); the program counter advances by 2 (D2, log 3). -/
def Obligations.PopLoadsRegister : Prop :=
  ∀ (ra : RegIdx) (s : State), ∃ t, exec (.pop ra) s = .next t ∧
    t.readReg ra = s.readMem (s.readReg 7) ∧ (ra ≠ 7 → t.readReg 7 = s.readReg 7 + 1) ∧ AdvancedBy .pop 2 s t ∧
    RegsKeptBut [7, ra] s t ∧ t.fl = s.fl ∧ MemKept s t ∧ ControlKept s t

/-- 45_control.md R190: `pc + 2` is pushed and the program counter becomes the register as it is after the push, so
`CALL R7` jumps to the new stack pointer (D2, D7, logs 3 and 4). -/
def Obligations.CallPushesReturnAddress : Prop :=
  ∀ (ra : RegIdx) (s : State), ∃ t, exec (.call ra) s = .next t ∧
    t.readReg 7 = s.readReg 7 - 1 ∧ t.readMem (s.readReg 7 - 1) = s.pc + 2 ∧
    t.pc = (if ra = 7 then s.readReg 7 - 1 else s.readReg ra) ∧
    RegsKeptBut [7] s t ∧ t.fl = s.fl ∧ MemKeptBut (s.readReg 7 - 1) s t ∧ ControlKept s t

/-- 45_control.md R191: the program counter becomes the byte popped. -/
def Obligations.RetPopsProgramCounter : Prop :=
  ∀ s : State, ∃ t, exec .ret s = .next t ∧
    t.pc = s.readMem (s.readReg 7) ∧ t.readReg 7 = s.readReg 7 + 1 ∧
    RegsKeptBut [7] s t ∧ t.fl = s.fl ∧ MemKept s t ∧ ControlKept s t

/-- 45_control.md R192: the program counter becomes the register's value; nothing is added and nothing saved. -/
def Obligations.JmpSetsProgramCounter : Prop :=
  ∀ (ra : RegIdx) (s : State), ∃ t, exec (.jmp ra) s = .next t ∧
    t.pc = s.readReg ra ∧
    RegsKeptBut [] s t ∧ t.fl = s.fl ∧ MemKept s t ∧ ControlKept s t

/-- 45_control.md R193, R194: each jump tests bit 0 of `fl` alone, JEQ for 1 and JNE for 0, and falls through by 2
otherwise (D2, log 3); `fl` is unchanged either way. -/
def Obligations.ConditionalJumpsTestEqBit : Prop :=
  ∀ (ra : RegIdx) (s : State),
    (∃ t, exec (.jeq ra) s = .next t ∧
      (s.fl.getLsbD 0 = true → t.pc = s.readReg ra) ∧ (s.fl.getLsbD 0 = false → AdvancedBy .jeq 2 s t) ∧
      RegsKeptBut [] s t ∧ t.fl = s.fl ∧ MemKept s t ∧ ControlKept s t) ∧
    (∃ t, exec (.jne ra) s = .next t ∧
      (s.fl.getLsbD 0 = false → t.pc = s.readReg ra) ∧ (s.fl.getLsbD 0 = true → AdvancedBy .jne 2 s t) ∧
      RegsKeptBut [] s t ∧ t.fl = s.fl ∧ MemKept s t ∧ ControlKept s t)

/-! ### Instructions together -/

/-- 45_control.md R191: a RET that pops the byte a CALL pushed, whatever ran in between, resumes at the instruction after
the CALL, modulo 256 (D2, log 3), and leaves the stack pointer as it was before it. -/
def Obligations.CallAndRetAreSymmetric : Prop :=
  ∀ (ra : RegIdx) (s t u : State), exec (.call ra) s = .next t →
    u.readReg 7 = t.readReg 7 → u.readMem (u.readReg 7) = t.readMem (t.readReg 7) →
      ∃ v, exec .ret u = .next v ∧ v.pc = s.pc + 2 ∧ v.readReg 7 = s.readReg 7

/-- 44_stack.md R180 to R182: a POP after a PUSH gives the pushed register's value, and the stack pointer is restored
unless it is the register popped into. What PUSH R7 stores and what POP R7 keeps is the spec's choice (decision D7,
log 4). -/
def Obligations.PushThenPopRestores : Prop :=
  ∀ (ra rb : RegIdx) (s t : State), exec (.push ra) s = .next t →
    ∃ u, exec (.pop rb) t = .next u ∧ u.readReg rb = s.readReg ra ∧
      (rb ≠ 7 → u.readReg 7 = s.readReg 7 ∧ RegsKeptBut [rb] s u)

/-- 45_control.md R194: after a CMP exactly one of JEQ and JNE on a register jumps: JEQ when the operands were equal,
JNE when they were not. The other falls through by 2 (D2, log 3). -/
def Obligations.CompareThenBranchIsExclusive : Prop :=
  ∀ (om : OpMap) (ra rb rx : RegIdx) (s t : State), om.Admissible → exec (.cmp ra rb) s = .next t →
    ∃ u v, exec (.jeq rx) (t.withIr (om .jeq)) = .next u ∧ exec (.jne rx) (t.withIr (om .jne)) = .next v ∧
      (s.readReg ra = s.readReg rb → u.pc = s.readReg rx ∧ v.pc = t.pc + 2) ∧
      (s.readReg ra ≠ s.readReg rb → u.pc = t.pc + 2 ∧ v.pc = s.readReg rx)

/-- 10_state.md R24: an instruction writes no register but those of the table's last column, and depends on no register
but those of its middle column: two states that agree on those answer states that agree on everything but the
registers neither read nor written. -/
def Obligations.RegisterUseFollowsTable : Prop :=
  ∀ (i : Instr) (s t : State), exec i s = .next t →
    RegsKeptBut (regsWritten i) s t ∧
    ∀ s' : State, s'.withRegs s.regs = s →
      (∀ r ∈ regsRead (s.fl.getLsbD 0) i, s'.readReg r = s.readReg r) →
        ∃ t', exec i s' = .next t' ∧ t'.withRegs t.regs = t ∧ (∀ r ∈ regsWritten i, t'.readReg r = t.readReg r) ∧
          RegsKeptBut (regsWritten i) s' t'

/-- 10_state.md R30: CMP alone writes `fl`, through `SetFlag` with bit 0, and no step writes it in any other way; JEQ
and JNE alone read it, and of it bit 0 alone. -/
def Obligations.OnlyCmpWritesAndJumpsReadFlags : Prop :=
  (∀ (cfg : Config) (s t : State), stepWith cfg s = .next t →
    t.fl = s.fl ∨ ∃ ra rb c, s.fetch.decoded cfg = .instr (.cmp ra rb) ∧ t.fl = (s.setFlag 0 c).fl) ∧
  (∀ (i : Instr) (s t : State) (f : Byte), exec i s = .next t →
    ((∃ ra, i = .jeq ra ∨ i = .jne ra) → f.getLsbD 0 = s.fl.getLsbD 0) →
      ∃ g, exec i (s.withFl f) = .next (t.withFl g))

/-! ### The step -/

/-- 40_instruction_cycle.md R111: when the three bytes at the program counter, addresses taken modulo 256 (D2, log 3),
decode to an instruction, the step is that instruction's handler and PC advance on the state whose `ir` holds the opcode
byte (log 12). `step` has the default parameters (D3 and D4, logs 1 and 2). -/
def Obligations.StepRunsDecodedInstruction : Prop :=
  (∀ (cfg : Config) (s : State) (i : Instr), s.run = .running →
    decode cfg (s.readMem s.pc) (s.readMem (s.pc + 1)) (s.readMem (s.pc + 2)) = .instr i →
      stepWith cfg s = exec i (s.withIr (s.readMem s.pc))) ∧
  (∀ (s : State) (i : Instr), s.run = .running →
    decode Config.standard (s.readMem s.pc) (s.readMem (s.pc + 1)) (s.readMem (s.pc + 2)) = .instr i →
      step s = exec i (s.withIr (s.readMem s.pc)))

/-- A running machine whose memory holds an instruction's bytes at the program counter, at ascending addresses that wrap
from 255 to 0 (20_memory.md R54, R56; D2, log 3), executes that instruction on the fetched state (log 12), whatever
stands after it. -/
def Obligations.StepRunsEncodedInstruction : Prop :=
  ∀ (cfg : Config) (i : Instr) (s : State), cfg.opmap.Admissible → s.run = .running →
    (∀ k : Nat, k < (encodeWith cfg i).length →
      s.readMem (s.pc + BitVec.ofNat 8 k) = (encodeWith cfg i).getD k 0) →
        stepWith cfg s = exec i (s.withIr (cfg.opmap i.mnemonic))

/-- The placing of a table word: the very next step decodes the three bytes of the word, from its first, and runs what
they decode to (logs 10 and 18; D11), with the default parameters (D3 and D4, logs 1 and 2) and addresses that wrap (D2,
log 3). -/
def Obligations.FetchWordIsRunNext : Prop :=
  ∀ (s : State) (nbits w : Nat) (i : Instr), decodeTableWord nbits w = some i →
    step (s.withFetchWord nbits w) = exec i ((s.withFetchWord nbits w).withIr (tableByte nbits w 0))

/-- No step, whatever the parameters and the state, stops the model: there is always a next state
(40_instruction_cycle.md R110; 60_exceptions.md R214, R215), of a fault (D6, log 6) and of a halted step (D5, log 5)
too. -/
def Obligations.EveryStepHasNextState : Prop :=
  ∀ (cfg : Config) (s : State), ∃ t, stepWith cfg s = .next t

/-- 40_instruction_cycle.md R112: the fetch writes `ir` with the byte at the program counter and nothing else, and after
every step taken while running `ir` is that byte, legal or not. -/
def Obligations.FetchWritesInstructionRegister : Prop :=
  (∀ s : State, s.fetch = s.withIr (s.readMem s.pc)) ∧
  ∀ (cfg : Config) (s t : State), s.run = .running → stepWith cfg s = .next t → t.ir = s.readMem s.pc

/-- 40_instruction_cycle.md R117: a step that runs an instruction which is no control transfer advances the program
counter by the instruction's operand count and one, modulo 256 (D2, log 3). -/
def Obligations.FallThroughAdvancesByLength : Prop :=
  ∀ (cfg : Config) (s t : State) (i : Instr), cfg.opmap.Admissible → s.run = .running →
    s.fetch.decoded cfg = .instr i → ¬ Transfers i → stepWith cfg s = .next t →
      t.pc.toNat = (s.pc.toNat + i.mnemonic.format.operandCount + 1) % 256

/-- 10_state.md R28: the instruction register carries nothing from one step to the next, and an instruction sees of it
only the length bits (30_encoding.md R81; 40_instruction_cycle.md R117; log 12, DEDUCED): with another byte of the same
bits 7:6 the same happens. -/
def Obligations.InstructionRegisterIsUnobservable : Prop :=
  (∀ (cfg : Config) (s : State) (b : Byte), s.run = .running → stepWith cfg (s.withIr b) = stepWith cfg s) ∧
  (∀ (i : Instr) (s t : State) (b : Byte), b >>> 6 = s.ir >>> 6 → exec i s = .next t →
    exec i (s.withIr b) = .next (t.withIr b))

/-- 92_eei_decisions.md D3 (log 1): "every semantic rule is map-independent". Under any two admissible maps an
instruction does the same, but for the opcode byte in `ir`, which the fetch has put there (log 12). -/
def Obligations.MeaningIsIndependentOfMap : Prop :=
  ∀ (om om' : OpMap) (i : Instr) (s t : State), om.Admissible → om'.Admissible →
    exec i (s.withIr (om i.mnemonic)) = .next t →
      exec i (s.withIr (om' i.mnemonic)) = .next (t.withIr (om' i.mnemonic))

/-- 20_memory.md R58: a step changes memory only at an address of its list of transactions, leaves there what the list
says, and depends on memory only through the bytes that the list reads. The list `accessesWith` stands beside the step
and is DEDUCED (log 14). It rests on the spec's decisions D2 (addresses and CALL's return address wrap, log 3), D7 (`R7`
in PUSH, POP and CALL, log 4), D5 (a halted step does nothing, log 5) and D6 (a faulting step writes no memory, log 6).
-/
def Obligations.StepTouchesOnlyItsAccesses : Prop :=
  ∀ (cfg : Config) (s t : State), stepWith cfg s = .next t →
    (∀ a : Byte, (∀ v, .write a v ∉ accessesWith cfg s) → t.readMem a = s.readMem a) ∧
    (∀ a v : Byte, .write a v ∈ accessesWith cfg s → t.readMem a = v) ∧
    (∀ m : Memory, (∀ a : Byte, .read a ∈ accessesWith cfg s → (s.withMem m).readMem a = s.readMem a) →
      accessesWith cfg (s.withMem m) = accessesWith cfg s ∧
      ∃ t', stepWith cfg (s.withMem m) = .next t' ∧ t'.withMem t.mem = t)

/-- 10_state.md R34 (the spec's decision D10, log 9): a step that runs PRN appends the register's value to the output
history, every other step leaves it as it was, a halted one (D5, log 5) and a faulting one (D6, log 6) too. -/
def Obligations.OutputGrowsByPrnOnly : Prop :=
  ∀ (cfg : Config) (s t : State), stepWith cfg s = .next t →
    (∀ ra, s.run = .running → s.fetch.decoded cfg = .instr (.prn ra) → t.out = s.out ++ [s.readReg ra]) ∧
    ((s.run = .halted ∨ ∀ ra, s.fetch.decoded cfg ≠ .instr (.prn ra)) → t.out = s.out)

/-- 41_system.md R140, 70_reset_and_hazards.md R250: under the default map (D3, log 1) a running machine over zeroed
memory walks through it one address a step, for any number of steps, wrapping from 255 to 0 (D2, log 3). -/
def Obligations.ZeroMemoryIsSlideOfNops : Prop :=
  ∀ (s : State) (n : Nat), s.run = .running → (∀ a : Byte, s.readMem a = 0) →
    Sys2Proof.core.run n s =
      .next ((s.withPc (s.pc + BitVec.ofNat 8 n)).withIr (if n = 0 then s.ir else 0))

/-! ### Faults and halting -/

/-- 60_exceptions.md R210, R211, R215, R221 (the spec's decisions D6 and D8, log 6): a running machine that fetches a
byte no mnemonic has halts with the record of the byte and its address; nothing else changes but `ir`. -/
def Obligations.IllegalOpcodeHaltsPrecisely : Prop :=
  ∀ (cfg : Config) (s : State), s.run = .running → (∀ m, cfg.opmap m ≠ s.readMem s.pc) →
    ∃ t, stepWith cfg s = .next t ∧ t.run = .halted ∧ t.fault = .illegalOpcode s.pc (s.readMem s.pc) ∧
      t.ir = s.readMem s.pc ∧ t.pc = s.pc ∧ RegsKeptBut [] s t ∧ t.fl = s.fl ∧ MemKept s t ∧ t.out = s.out ∧
      t.status = .fault .illegalOpcode

/-- 60_exceptions.md R210, R213, R215, R221, 40_instruction_cycle.md R115 (the spec's decisions D4, D6, D8, D16, logs 2,
6 and 16; the record, log 14): with the default mode, a legal opcode with a byte above 7 in a register position halts
the machine before any effect, with both bytes in the record, whatever the instruction would have done. -/
def Obligations.IllegalOperandHaltsPrecisely : Prop :=
  ∀ (cfg : Config) (s : State) (m : Mnemonic), cfg.opmap.Admissible → cfg.regIdxMode = .fault → s.run = .running →
    cfg.opmap m = s.readMem s.pc →
    (m.format ≠ .f0 ∧ 8 ≤ (s.readMem (s.pc + 1)).toNat ∨ m.format = .f2rr ∧ 8 ≤ (s.readMem (s.pc + 2)).toNat) →
      ∃ t, stepWith cfg s = .next t ∧ t.run = .halted ∧
        t.fault = .illegalOperand s.pc (s.readMem s.pc) (s.readMem (s.pc + 1)) (s.readMem (s.pc + 2)) ∧
        t.ir = s.readMem s.pc ∧ t.pc = s.pc ∧ RegsKeptBut [] s t ∧ t.fl = s.fl ∧ MemKept s t ∧ t.out = s.out ∧
        t.status = .fault .illegalOperand

/-- 40_instruction_cycle.md R115: with `REGIDX_MODE = mask3`, the alternative of the spec's decision D4 (log 2), the
operand check never faults. -/
def Obligations.MaskModeNeverRefusesOperands : Prop :=
  ∀ (cfg : Config) (op a b : Byte), cfg.regIdxMode = .mask3 →
    decode cfg op a b ≠ .illegalOperand ∧
    ((∃ m, cfg.opmap m = op) → ∃ i, decode cfg op a b = .instr i)

/-- 10_state.md R32, R33: a running machine halts in a step in exactly three ways, HLT, an illegal opcode and an illegal
operand, and the latch tells them apart. The third way is the spec's decision D4 (log 2), checked before the handler by
D16 (log 16); the latch is its decision D8 and the state a fault leaves its D6 (log 6). -/
def Obligations.HaltingHasThreeCauses : Prop :=
  ∀ (cfg : Config) (s t : State), s.run = .running → s.fault = .none → stepWith cfg s = .next t →
    (t.run = .halted ↔ s.fetch.decoded cfg = .instr .hlt ∨ s.fetch.decoded cfg = .illegalOpcode ∨
      s.fetch.decoded cfg = .illegalOperand) ∧
    (t.endedByHlt ↔ s.fetch.decoded cfg = .instr .hlt) ∧
    (t.endedByFault ↔ s.fetch.decoded cfg = .illegalOpcode ∨ s.fetch.decoded cfg = .illegalOperand)

/-- 40_instruction_cycle.md R122 (the spec's decision D5, log 5), 60_exceptions.md R217, R226: from a halted state, any
events but a reset leave everything as it is but the bytes the loader pokes between steps (D11, log 10). -/
def Obligations.HaltedUntilReset : Prop :=
  ∀ (cfg : Config) (events : List PortEvent) (s : State), s.run = .halted → .reset ∉ events →
    ∃ t, respondAll cfg events s = .next t ∧ t.withMem s.mem = s

/-- 60_exceptions.md R221 (the spec's decision D8, log 6; the order of its lines, log 13): the status port in every
state that meets the invariant. It never shows the out-of-range fault (R212; D1, log 15). -/
def Obligations.StatusTellsHaltFromFault : Prop :=
  ∀ (cfg : Config) (s : State), s.Inv cfg →
    (s.status = .running ↔ s.run = .running) ∧
    (s.status = .halted ↔ s.endedByHlt) ∧
    (∀ k, s.status = .fault k ↔ s.fault.kind = some k) ∧
    s.status ≠ .fault .addressRange

/-! ### Reset and the invariant -/

/-- 10_state.md R37, 70_reset_and_hazards.md R240, R241: every piece of state after reset (`ir`, `fl`, `fault` and `out`
by the spec's decision D9, log 7; memory by D20, log 8), from any state (D12, log 11). -/
def Obligations.ResetPutsEveryField : Prop :=
  ∀ (cfg : Config) (s : State), ∃ t, respond cfg .reset s = .next t ∧
    (∀ r : RegIdx, t.readReg r = if r = 7 then 0xF3 else 0) ∧ t.pc = 0 ∧ t.ir = 0 ∧ t.fl = 0 ∧
    (∀ a : Byte, t.readMem a = 0) ∧ t.run = .running ∧ t.fault = .none ∧ t.out = []

/-- 10_state.md R37: the state after reset meets the invariant, whatever the parameters. That `fl` is 0 and the latch
empty is the spec's decision D9 (log 7), the bits 7 to 1 of `fl` are storage by its D13 (log 19), and memory lists
nothing because an unwritten byte reads 0 by its D20 (log 8). -/
def Obligations.ResetMeetsInvariant : Prop := ∀ cfg : Config, State.reset.Inv cfg

/-- The invariant: memory stays canonical, the fault latch stays truthful and terminal, the flag bits that no
instruction writes stay 0. Every step from a state that meets it, reachable or not, keeps it (10_state.md R31, R33;
40_instruction_cycle.md R122; 60_exceptions.md R210, R212, R215). The clause on the latch rests on the spec's decisions
D6 and D8 (log 6) and, for the records of an illegal operand, D4 (log 2; both bytes, log 14); for halted steps on D5
(log 5); that the out-of-range fault is never latched is D1 (log 15); that bits 7 to 1 of `fl` are storage is D13 (log
19). -/
def Obligations.StepKeepsInvariant : Prop :=
  (∀ (cfg : Config) (s t : State), s.Inv cfg → stepWith cfg s = .next t → t.Inv cfg) ∧
  (∀ s t : State, s.Inv Config.standard → step s = .next t → t.Inv Config.standard)

/-- 20_memory.md R69: a poke, between steps (D11, log 10), changes the one byte and no other state, and keeps the
invariant. -/
def Obligations.PokeChangesOneByte : Prop :=
  ∀ (cfg : Config) (s : State) (a v : Byte), ∃ t, respond cfg (.poke a v) s = .next t ∧
    t.readMem a = v ∧ MemKeptBut a s t ∧ t.withMem s.mem = s ∧ (s.Inv cfg → t.Inv cfg)
end

