-- ==== Sys2Proof/Laws/Decode.lean ====
section
/-! SUPPORT. The laws of the decoder's parts: register bytes, the opcode lookup, the operand check. -/

namespace Sys2Proof

/-! ### Mnemonics and maps -/

theorem Mnemonic.mem_all (m : Mnemonic) : m ∈ Mnemonic.all := by cases m <;> decide

/-- The check of an opcode map is what the claims mean by an admissible map. -/
theorem OpMap.admissible_iff (om : OpMap) : om.admissible = true ↔ om.Admissible := by
  simp only [OpMap.admissible, OpMap.distinct, OpMap.countsAgree, OpMap.countAgrees, Bool.and_eq_true, List.all_eq_true,
    Bool.or_eq_true, beq_iff_eq, bne_iff_ne]
  constructor
  · rintro ⟨hd, hc⟩
    exact ⟨fun m n h => (hd m m.mem_all n n.mem_all).resolve_right fun hne => hne h, fun m => hc m m.mem_all⟩
  · rintro ⟨hd, hc⟩
    exact ⟨fun m _ n _ => or_iff_not_imp_right.mpr fun h => hd m n (not_not.mp h), fun m _ => hc m⟩

/-- Under an admissible map every instruction is well formed. -/
theorem Instr.wellFormed_of_admissible {om : OpMap} (h : om.Admissible) (i : Instr) : i.wellFormed om = true := by
  simp [Instr.wellFormed, OpMap.countAgrees, h.countAgrees]

/-- The operand count of a mnemonic is 0, 1 or 2. -/
theorem Mnemonic.operandCount_le (m : Mnemonic) : m.format.operandCount ≤ 2 := by cases m <;> decide

/-- The length read off an opcode byte, as a number. -/
theorem instrLength_toNat (op : Byte) : (instrLength op).toNat = (op >>> 6).toNat + 1 := by
  have key : ∀ b : Byte, (instrLength b).toNat = (b >>> 6).toNat + 1 := by decide
  exact key op

/-- Under an admissible map the length read off an instruction's opcode byte is its operand count and one. -/
theorem instrLength_of_admissible {om : OpMap} (h : om.Admissible) (m : Mnemonic) :
    instrLength (om m) = BitVec.ofNat 8 (m.format.operandCount + 1) := by
  have hlen := instrLength_toNat (om m)
  rw [h.countAgrees m] at hlen
  rw [← hlen, BitVec.ofNat_toNat, BitVec.setWidth_eq]

/-! ### Register bytes -/

theorem regByteOk_iff (b : Byte) : regByteOk b = true ↔ b.toNat < 8 := by
  have key : ∀ b : Byte, regByteOk b = true ↔ b.toNat < 8 := by decide
  exact key b

@[simp] theorem regByteOk_regByte (r : RegIdx) : regByteOk (regByte r) = true := by revert r; decide

@[simp] theorem regIndex_regByte (r : RegIdx) : regIndex (regByte r) = r := by revert r; decide

/-- A legal register byte is the byte of its index. -/
theorem regByte_regIndex {b : Byte} (h : regByteOk b = true) : regByte (regIndex b) = b := by
  have key : ∀ b : Byte, regByteOk b = true → regByte (regIndex b) = b := by decide
  exact key b h

/-- A register byte that an index encodes to is read as that index, whatever the mode. -/
@[simp] theorem regOperand_regByte (mode : RegIdxMode) (r : RegIdx) : regOperand mode (regByte r) = some r := by
  simp [regOperand]

/-- A register byte that an index encodes to gives the instruction with that index. -/
theorem withReg_regByte (mode : RegIdxMode) (r : RegIdx) (f : RegIdx → Instr) :
    withReg mode (regByte r) f = some (f r) := by
  simp only [withReg, regOperand_regByte, Option.map_some]

/-- Two register bytes that indexes encode to give the instruction with those indexes. -/
theorem withRegs_regByte (mode : RegIdxMode) (r q : RegIdx) (f : RegIdx → RegIdx → Instr) :
    withRegs mode (regByte r) (regByte q) f = some (f r q) := by
  simp only [withRegs, regOperand_regByte]

/-- With the default mode an index read comes from its own byte. -/
theorem regOperand_fault {b : Byte} {r : RegIdx} (h : regOperand .fault b = some r) : b = regByte r := by
  unfold regOperand at h
  split at h
  · next hb => rw [← Option.some.inj h, regByte_regIndex hb]
  · cases h

/-- With the masking mode every byte is read as an index. -/
@[simp] theorem regOperand_mask3 (b : Byte) : regOperand .mask3 b = some (regIndex b) := by
  unfold regOperand; split <;> rfl

/-- With the default mode a byte is refused exactly when it is above 7. -/
theorem regOperand_fault_none (b : Byte) : regOperand .fault b = none ↔ 8 ≤ b.toNat := by
  have h := regByteOk_iff b
  unfold regOperand
  split
  · next hb => simp only [reduceCtorEq, false_iff]; have := h.mp hb; omega
  · next hb => simp only [true_iff]; by_contra hlt; exact hb (h.mpr (by omega))

/-! ### The opcode lookup -/

/-- A mnemonic found has the byte looked up. -/
theorem opmap_of_decodeOpcode {om : OpMap} {op : Byte} {m : Mnemonic} (h : decodeOpcode om op = some m) : om m = op := by
  simpa using List.find?_some h

/-- With distinct bytes the byte of a mnemonic is found as that mnemonic. -/
theorem decodeOpcode_opmap {om : OpMap} (hd : ∀ m n, om m = om n → m = n) (m : Mnemonic) :
    decodeOpcode om (om m) = some m := by
  have hs : (decodeOpcode om (om m)).isSome = true :=
    List.find?_isSome.mpr ⟨m, m.mem_all, by simp⟩
  obtain ⟨n, hn⟩ := Option.isSome_iff_exists.mp hs
  rw [hn, hd n m (opmap_of_decodeOpcode hn)]

/-- No mnemonic is found exactly when none has the byte. -/
theorem decodeOpcode_none {om : OpMap} {op : Byte} : decodeOpcode om op = none ↔ ∀ m, om m ≠ op := by
  simp only [decodeOpcode, List.find?_eq_none, beq_iff_eq]
  exact ⟨fun h m => h m m.mem_all, fun h m _ => h m⟩

/-! ### Decoding -/

/-- What an answered instruction says of the lookup and of the operand bytes. -/
theorem decode_instr {cfg : Config} {op a b : Byte} {i : Instr} (h : decode cfg op a b = .instr i) :
    ∃ m, decodeOpcode cfg.opmap op = some m ∧ instrOf cfg.regIdxMode m a b = some i := by
  unfold decode at h
  split at h
  · cases h
  · next m hm =>
    split at h
    · cases h
    · next j hj => cases h; exact ⟨m, hm, hj⟩

/-- What the illegal-opcode answer says. -/
theorem decode_illegalOpcode {cfg : Config} {op a b : Byte} :
    decode cfg op a b = .illegalOpcode ↔ decodeOpcode cfg.opmap op = none := by
  unfold decode
  split
  · next h => simp [h]
  · next m hm => split <;> simp [hm]

/-- What the illegal-operand answer says. -/
theorem decode_illegalOperand {cfg : Config} {op a b : Byte} :
    decode cfg op a b = .illegalOperand ↔
      ∃ m, decodeOpcode cfg.opmap op = some m ∧ instrOf cfg.regIdxMode m a b = none := by
  unfold decode
  split
  · next h => simp [h]
  · next m hm => split <;> simp [*]

/-- An instruction built from a mnemonic has that mnemonic. -/
theorem mnemonic_of_instrOf {mode : RegIdxMode} {m : Mnemonic} {a b : Byte} {i : Instr}
    (h : instrOf mode m a b = some i) : i.mnemonic = m := by
  cases m <;> simp only [instrOf, withReg, withRegs, Option.map_eq_some_iff, Option.some.injEq] at h
  case add | mul | and | cmp => split at h <;> cases h; rfl
  case nop | hlt | ret => subst h; rfl
  all_goals obtain ⟨r, -, rfl⟩ := h; rfl

end Sys2Proof
end

