-- ==== Sys2Proof/Laws/Memory.lean ====
section
/-! SUPPORT. The laws of memory as data: reading after writing, and the canonical form. The two reading laws hold of
any list of cells; the canonical form makes equal memories equal data. -/

namespace Sys2Proof.Machine

/-! ### Reading -/

@[simp] theorem Memory.read_nil (a : Nat) : Memory.read [] a = Memory.unlisted := rfl

theorem Memory.read_cons (k : Nat) (w : Byte) (m : Memory) (a : Nat) :
    Memory.read ((k, w) :: m) a = if k = a then w else Memory.read m a := rfl

theorem Memory.read_erase (m : Memory) (a b : Nat) :
    Memory.read (Memory.erase m a) b = if a = b then Memory.unlisted else Memory.read m b := by
  induction m with
  | nil => simp [Memory.erase]
  | cons cell rest ih =>
    obtain ⟨k, w⟩ := cell
    by_cases hk : k = a
    · subst hk
      simp only [Memory.erase, if_pos, ih, Memory.read_cons]
      split <;> rfl
    · simp only [Memory.erase, if_neg hk, Memory.read_cons, ih]
      split
      · next hb => rw [if_neg (by omega)]
      · rfl

theorem Memory.length_erase_le (m : Memory) (a : Nat) : (Memory.erase m a).length ≤ m.length := by
  induction m with
  | nil => exact le_rfl
  | cons cell rest ih =>
    obtain ⟨k, w⟩ := cell
    simp only [Memory.erase]
    split <;> simp <;> omega

/-- A memory that an erasure leaves alone does not list the address. -/
theorem Memory.erase_cons_fixed {k a : Nat} {w : Byte} {m : Memory}
    (h : Memory.erase ((k, w) :: m) a = (k, w) :: m) : k ≠ a ∧ Memory.erase m a = m := by
  by_cases hk : k = a
  · have hlen := Memory.length_erase_le m a
    simp only [Memory.erase, if_pos hk] at h
    rw [h] at hlen
    simp at hlen
  · simp only [Memory.erase, if_neg hk, List.cons.injEq, true_and] at h
    exact ⟨hk, h⟩

/-- What every address reads after a cell is inserted at an address that was not listed. -/
theorem Memory.read_insert {m : Memory} {a : Nat} (v : Byte) (hm : Memory.erase m a = m) (b : Nat) :
    Memory.read (Memory.insert m a v) b = if a = b then v else Memory.read m b := by
  induction m with
  | nil => rfl
  | cons cell rest ih =>
    obtain ⟨k, w⟩ := cell
    obtain ⟨hk, hrest⟩ := Memory.erase_cons_fixed hm
    simp only [Memory.insert]
    split
    · rfl
    · simp only [Memory.read_cons, ih hrest]
      split
      · next hb => rw [if_neg (by omega)]
      · rfl

theorem Memory.erase_erase (m : Memory) (a : Nat) : Memory.erase (Memory.erase m a) a = Memory.erase m a := by
  induction m with
  | nil => rfl
  | cons cell rest ih =>
    obtain ⟨k, w⟩ := cell
    by_cases hk : k = a <;> simp [Memory.erase, hk, ih]

/-- What every address reads after a write. -/
theorem Memory.read_write (m : Memory) (a : Nat) (v : Byte) (b : Nat) :
    Memory.read (Memory.write m a v) b = if a = b then v else Memory.read m b := by
  unfold Memory.write
  split
  · next hv => rw [Memory.read_erase, hv]
  · rw [Memory.read_insert v (Memory.erase_erase m a), Memory.read_erase]
    split <;> rfl

/-! ### The canonical form -/

theorem Memory.wfFrom_cons {low k : Nat} {w : Byte} {m : Memory} :
    Memory.wfFrom low ((k, w) :: m) = true ↔
      low ≤ k ∧ k < Config.memSize ∧ w ≠ Memory.unlisted ∧ Memory.wfFrom (k + 1) m = true := by
  simp [Memory.wfFrom, and_assoc]

/-- A smaller lower bound is a weaker demand. -/
theorem Memory.wfFrom_mono {m : Memory} {low low' : Nat} (h : Memory.wfFrom low m = true) (hl : low' ≤ low) :
    Memory.wfFrom low' m = true := by
  cases m with
  | nil => rfl
  | cons cell rest =>
    obtain ⟨k, w⟩ := cell
    rw [Memory.wfFrom_cons] at h ⊢
    exact ⟨by omega, h.2⟩

theorem Memory.wfFrom_erase {m : Memory} {low : Nat} (a : Nat) (h : Memory.wfFrom low m = true) :
    Memory.wfFrom low (Memory.erase m a) = true := by
  induction m generalizing low with
  | nil => rfl
  | cons cell rest ih =>
    obtain ⟨k, w⟩ := cell
    rw [Memory.wfFrom_cons] at h
    simp only [Memory.erase]
    split
    · exact Memory.wfFrom_mono (ih h.2.2.2) (by omega)
    · exact Memory.wfFrom_cons.mpr ⟨h.1, h.2.1, h.2.2.1, ih h.2.2.2⟩

theorem Memory.wfFrom_insert {m : Memory} {low a : Nat} {v : Byte} (h : Memory.wfFrom low m = true)
    (hm : Memory.erase m a = m) (hl : low ≤ a) (ha : a < Config.memSize) (hv : v ≠ Memory.unlisted) :
    Memory.wfFrom low (Memory.insert m a v) = true := by
  induction m generalizing low with
  | nil => exact Memory.wfFrom_cons.mpr ⟨hl, ha, hv, rfl⟩
  | cons cell rest ih =>
    obtain ⟨k, w⟩ := cell
    rw [Memory.wfFrom_cons] at h
    obtain ⟨hk, hrest⟩ := Memory.erase_cons_fixed hm
    simp only [Memory.insert]
    split
    · next hlt => exact Memory.wfFrom_cons.mpr ⟨hl, ha, hv, Memory.wfFrom_cons.mpr ⟨hlt, h.2⟩⟩
    · exact Memory.wfFrom_cons.mpr ⟨h.1, h.2.1, h.2.2.1, ih h.2.2.2 hrest (by omega)⟩

/-- Every write keeps the canonical form. -/
theorem Memory.wf_write {m : Memory} {a : Nat} (v : Byte) (h : Memory.wf m = true) (ha : a < Config.memSize) :
    Memory.wf (Memory.write m a v) = true := by
  unfold Memory.write
  split
  · exact Memory.wfFrom_erase a h
  · next hv => exact Memory.wfFrom_insert (Memory.wfFrom_erase a h) (Memory.erase_erase m a) (Nat.zero_le a) ha hv

/-- The memory of the reset state is canonical. -/
theorem Memory.wf_reset : Memory.wf State.reset.mem = true := rfl

/-- Below its first possible address a canonical memory lists nothing. -/
theorem Memory.read_below {m : Memory} {low a : Nat} (h : Memory.wfFrom low m = true) (ha : a < low) :
    Memory.read m a = Memory.unlisted := by
  induction m generalizing low with
  | nil => rfl
  | cons cell rest ih =>
    obtain ⟨k, w⟩ := cell
    rw [Memory.wfFrom_cons] at h
    rw [Memory.read_cons, if_neg (by omega)]
    exact ih h.2.2.2 (by omega)

end Sys2Proof.Machine
end

