-- ==== Sys2Proof/Laws/State.lean ====
section
/-! SUPPORT. What each field of the state is after each update: one lemma per field per update. -/

namespace Sys2Proof.Machine.State

variable (s : State)

@[simp] theorem withRegs_regs (v : Vector Byte 8) : (s.withRegs v).regs = v := rfl
@[simp] theorem withRegs_pc (v : Vector Byte 8) : (s.withRegs v).pc = s.pc := rfl
@[simp] theorem withRegs_ir (v : Vector Byte 8) : (s.withRegs v).ir = s.ir := rfl
@[simp] theorem withRegs_fl (v : Vector Byte 8) : (s.withRegs v).fl = s.fl := rfl
@[simp] theorem withRegs_mem (v : Vector Byte 8) : (s.withRegs v).mem = s.mem := rfl
@[simp] theorem withRegs_run (v : Vector Byte 8) : (s.withRegs v).run = s.run := rfl
@[simp] theorem withRegs_fault (v : Vector Byte 8) : (s.withRegs v).fault = s.fault := rfl
@[simp] theorem withRegs_out (v : Vector Byte 8) : (s.withRegs v).out = s.out := rfl

@[simp] theorem withPc_regs (v : Byte) : (s.withPc v).regs = s.regs := rfl
@[simp] theorem withPc_pc (v : Byte) : (s.withPc v).pc = v := rfl
@[simp] theorem withPc_ir (v : Byte) : (s.withPc v).ir = s.ir := rfl
@[simp] theorem withPc_fl (v : Byte) : (s.withPc v).fl = s.fl := rfl
@[simp] theorem withPc_mem (v : Byte) : (s.withPc v).mem = s.mem := rfl
@[simp] theorem withPc_run (v : Byte) : (s.withPc v).run = s.run := rfl
@[simp] theorem withPc_fault (v : Byte) : (s.withPc v).fault = s.fault := rfl
@[simp] theorem withPc_out (v : Byte) : (s.withPc v).out = s.out := rfl

@[simp] theorem withIr_regs (v : Byte) : (s.withIr v).regs = s.regs := rfl
@[simp] theorem withIr_pc (v : Byte) : (s.withIr v).pc = s.pc := rfl
@[simp] theorem withIr_ir (v : Byte) : (s.withIr v).ir = v := rfl
@[simp] theorem withIr_fl (v : Byte) : (s.withIr v).fl = s.fl := rfl
@[simp] theorem withIr_mem (v : Byte) : (s.withIr v).mem = s.mem := rfl
@[simp] theorem withIr_run (v : Byte) : (s.withIr v).run = s.run := rfl
@[simp] theorem withIr_fault (v : Byte) : (s.withIr v).fault = s.fault := rfl
@[simp] theorem withIr_out (v : Byte) : (s.withIr v).out = s.out := rfl

@[simp] theorem withFl_regs (v : Byte) : (s.withFl v).regs = s.regs := rfl
@[simp] theorem withFl_pc (v : Byte) : (s.withFl v).pc = s.pc := rfl
@[simp] theorem withFl_ir (v : Byte) : (s.withFl v).ir = s.ir := rfl
@[simp] theorem withFl_fl (v : Byte) : (s.withFl v).fl = v := rfl
@[simp] theorem withFl_mem (v : Byte) : (s.withFl v).mem = s.mem := rfl
@[simp] theorem withFl_run (v : Byte) : (s.withFl v).run = s.run := rfl
@[simp] theorem withFl_fault (v : Byte) : (s.withFl v).fault = s.fault := rfl
@[simp] theorem withFl_out (v : Byte) : (s.withFl v).out = s.out := rfl

@[simp] theorem withMem_regs (v : Memory) : (s.withMem v).regs = s.regs := rfl
@[simp] theorem withMem_pc (v : Memory) : (s.withMem v).pc = s.pc := rfl
@[simp] theorem withMem_ir (v : Memory) : (s.withMem v).ir = s.ir := rfl
@[simp] theorem withMem_fl (v : Memory) : (s.withMem v).fl = s.fl := rfl
@[simp] theorem withMem_mem (v : Memory) : (s.withMem v).mem = v := rfl
@[simp] theorem withMem_run (v : Memory) : (s.withMem v).run = s.run := rfl
@[simp] theorem withMem_fault (v : Memory) : (s.withMem v).fault = s.fault := rfl
@[simp] theorem withMem_out (v : Memory) : (s.withMem v).out = s.out := rfl

@[simp] theorem withRun_regs (v : RunState) : (s.withRun v).regs = s.regs := rfl
@[simp] theorem withRun_pc (v : RunState) : (s.withRun v).pc = s.pc := rfl
@[simp] theorem withRun_ir (v : RunState) : (s.withRun v).ir = s.ir := rfl
@[simp] theorem withRun_fl (v : RunState) : (s.withRun v).fl = s.fl := rfl
@[simp] theorem withRun_mem (v : RunState) : (s.withRun v).mem = s.mem := rfl
@[simp] theorem withRun_run (v : RunState) : (s.withRun v).run = v := rfl
@[simp] theorem withRun_fault (v : RunState) : (s.withRun v).fault = s.fault := rfl
@[simp] theorem withRun_out (v : RunState) : (s.withRun v).out = s.out := rfl

@[simp] theorem withFault_regs (v : FaultLatch) : (s.withFault v).regs = s.regs := rfl
@[simp] theorem withFault_pc (v : FaultLatch) : (s.withFault v).pc = s.pc := rfl
@[simp] theorem withFault_ir (v : FaultLatch) : (s.withFault v).ir = s.ir := rfl
@[simp] theorem withFault_fl (v : FaultLatch) : (s.withFault v).fl = s.fl := rfl
@[simp] theorem withFault_mem (v : FaultLatch) : (s.withFault v).mem = s.mem := rfl
@[simp] theorem withFault_run (v : FaultLatch) : (s.withFault v).run = s.run := rfl
@[simp] theorem withFault_fault (v : FaultLatch) : (s.withFault v).fault = v := rfl
@[simp] theorem withFault_out (v : FaultLatch) : (s.withFault v).out = s.out := rfl

@[simp] theorem withOut_regs (v : List Byte) : (s.withOut v).regs = s.regs := rfl
@[simp] theorem withOut_pc (v : List Byte) : (s.withOut v).pc = s.pc := rfl
@[simp] theorem withOut_ir (v : List Byte) : (s.withOut v).ir = s.ir := rfl
@[simp] theorem withOut_fl (v : List Byte) : (s.withOut v).fl = s.fl := rfl
@[simp] theorem withOut_mem (v : List Byte) : (s.withOut v).mem = s.mem := rfl
@[simp] theorem withOut_run (v : List Byte) : (s.withOut v).run = s.run := rfl
@[simp] theorem withOut_fault (v : List Byte) : (s.withOut v).fault = s.fault := rfl
@[simp] theorem withOut_out (v : List Byte) : (s.withOut v).out = v := rfl

/-! Writing a field back, and writing it twice. -/

@[simp] theorem withRegs_self : s.withRegs s.regs = s := rfl
@[simp] theorem withRegs_withRegs (v w : Vector Byte 8) : (s.withRegs v).withRegs w = s.withRegs w := rfl
@[simp] theorem withPc_self : s.withPc s.pc = s := rfl
@[simp] theorem withPc_withPc (v w : Byte) : (s.withPc v).withPc w = s.withPc w := rfl
@[simp] theorem withIr_self : s.withIr s.ir = s := rfl
@[simp] theorem withIr_withIr (v w : Byte) : (s.withIr v).withIr w = s.withIr w := rfl
@[simp] theorem withFl_self : s.withFl s.fl = s := rfl
@[simp] theorem withFl_withFl (v w : Byte) : (s.withFl v).withFl w = s.withFl w := rfl
@[simp] theorem withMem_self : s.withMem s.mem = s := rfl
@[simp] theorem withMem_withMem (v w : Memory) : (s.withMem v).withMem w = s.withMem w := rfl
@[simp] theorem withRun_self : s.withRun s.run = s := rfl
@[simp] theorem withRun_withRun (v w : RunState) : (s.withRun v).withRun w = s.withRun w := rfl
@[simp] theorem withFault_self : s.withFault s.fault = s := rfl
@[simp] theorem withFault_withFault (v w : FaultLatch) : (s.withFault v).withFault w = s.withFault w := rfl
@[simp] theorem withOut_self : s.withOut s.out = s := rfl
@[simp] theorem withOut_withOut (v w : List Byte) : (s.withOut v).withOut w = s.withOut w := rfl

end Sys2Proof.Machine.State
end

