-- ==== Sys2Proof/Laws/Ops.lean ====
section
/-! SUPPORT. Each shared operation once: which fields it leaves alone, and what it does to the others. The provers cite
these lemmas and need not unfold the operations. -/

namespace Sys2Proof.Machine

namespace State

variable (s : State)

/-! ### Fields an operation leaves alone -/

@[simp] theorem writeMem_regs (a v : Byte) : (s.writeMem a v).regs = s.regs := rfl
@[simp] theorem writeMem_pc (a v : Byte) : (s.writeMem a v).pc = s.pc := rfl
@[simp] theorem writeMem_ir (a v : Byte) : (s.writeMem a v).ir = s.ir := rfl
@[simp] theorem writeMem_fl (a v : Byte) : (s.writeMem a v).fl = s.fl := rfl
@[simp] theorem writeMem_run (a v : Byte) : (s.writeMem a v).run = s.run := rfl
@[simp] theorem writeMem_fault (a v : Byte) : (s.writeMem a v).fault = s.fault := rfl
@[simp] theorem writeMem_out (a v : Byte) : (s.writeMem a v).out = s.out := rfl

@[simp] theorem writeReg_pc (r : RegIdx) (v : Byte) : (s.writeReg r v).pc = s.pc := rfl
@[simp] theorem writeReg_ir (r : RegIdx) (v : Byte) : (s.writeReg r v).ir = s.ir := rfl
@[simp] theorem writeReg_fl (r : RegIdx) (v : Byte) : (s.writeReg r v).fl = s.fl := rfl
@[simp] theorem writeReg_mem (r : RegIdx) (v : Byte) : (s.writeReg r v).mem = s.mem := rfl
@[simp] theorem writeReg_run (r : RegIdx) (v : Byte) : (s.writeReg r v).run = s.run := rfl
@[simp] theorem writeReg_fault (r : RegIdx) (v : Byte) : (s.writeReg r v).fault = s.fault := rfl
@[simp] theorem writeReg_out (r : RegIdx) (v : Byte) : (s.writeReg r v).out = s.out := rfl

@[simp] theorem push_pc (v : Byte) : (s.push v).pc = s.pc := rfl
@[simp] theorem push_ir (v : Byte) : (s.push v).ir = s.ir := rfl
@[simp] theorem push_fl (v : Byte) : (s.push v).fl = s.fl := rfl
@[simp] theorem push_run (v : Byte) : (s.push v).run = s.run := rfl
@[simp] theorem push_fault (v : Byte) : (s.push v).fault = s.fault := rfl
@[simp] theorem push_out (v : Byte) : (s.push v).out = s.out := rfl

@[simp] theorem emit_regs (v : Byte) : (s.emit v).regs = s.regs := rfl
@[simp] theorem emit_pc (v : Byte) : (s.emit v).pc = s.pc := rfl
@[simp] theorem emit_ir (v : Byte) : (s.emit v).ir = s.ir := rfl
@[simp] theorem emit_fl (v : Byte) : (s.emit v).fl = s.fl := rfl
@[simp] theorem emit_mem (v : Byte) : (s.emit v).mem = s.mem := rfl
@[simp] theorem emit_run (v : Byte) : (s.emit v).run = s.run := rfl
@[simp] theorem emit_fault (v : Byte) : (s.emit v).fault = s.fault := rfl

@[simp] theorem halt_regs : (s.halt).regs = s.regs := rfl
@[simp] theorem halt_pc : (s.halt).pc = s.pc := rfl
@[simp] theorem halt_ir : (s.halt).ir = s.ir := rfl
@[simp] theorem halt_fl : (s.halt).fl = s.fl := rfl
@[simp] theorem halt_mem : (s.halt).mem = s.mem := rfl
@[simp] theorem halt_fault : (s.halt).fault = s.fault := rfl
@[simp] theorem halt_out : (s.halt).out = s.out := rfl

@[simp] theorem setFlag_regs (bit : Nat) (cond : Bool) : (s.setFlag bit cond).regs = s.regs := rfl
@[simp] theorem setFlag_pc (bit : Nat) (cond : Bool) : (s.setFlag bit cond).pc = s.pc := rfl
@[simp] theorem setFlag_ir (bit : Nat) (cond : Bool) : (s.setFlag bit cond).ir = s.ir := rfl
@[simp] theorem setFlag_mem (bit : Nat) (cond : Bool) : (s.setFlag bit cond).mem = s.mem := rfl
@[simp] theorem setFlag_run (bit : Nat) (cond : Bool) : (s.setFlag bit cond).run = s.run := rfl
@[simp] theorem setFlag_fault (bit : Nat) (cond : Bool) : (s.setFlag bit cond).fault = s.fault := rfl
@[simp] theorem setFlag_out (bit : Nat) (cond : Bool) : (s.setFlag bit cond).out = s.out := rfl

@[simp] theorem fetch_regs : (s.fetch).regs = s.regs := rfl
@[simp] theorem fetch_pc : (s.fetch).pc = s.pc := rfl
@[simp] theorem fetch_fl : (s.fetch).fl = s.fl := rfl
@[simp] theorem fetch_mem : (s.fetch).mem = s.mem := rfl
@[simp] theorem fetch_run : (s.fetch).run = s.run := rfl
@[simp] theorem fetch_fault : (s.fetch).fault = s.fault := rfl
@[simp] theorem fetch_out : (s.fetch).out = s.out := rfl

@[simp] theorem raise_regs (record : FaultLatch) : (s.raise record).regs = s.regs := rfl
@[simp] theorem raise_pc (record : FaultLatch) : (s.raise record).pc = s.pc := rfl
@[simp] theorem raise_ir (record : FaultLatch) : (s.raise record).ir = s.ir := rfl
@[simp] theorem raise_fl (record : FaultLatch) : (s.raise record).fl = s.fl := rfl
@[simp] theorem raise_mem (record : FaultLatch) : (s.raise record).mem = s.mem := rfl
@[simp] theorem raise_out (record : FaultLatch) : (s.raise record).out = s.out := rfl

@[simp] theorem pop_snd_pc : s.pop.2.pc = s.pc := rfl
@[simp] theorem pop_snd_ir : s.pop.2.ir = s.ir := rfl
@[simp] theorem pop_snd_fl : s.pop.2.fl = s.fl := rfl
@[simp] theorem pop_snd_mem : s.pop.2.mem = s.mem := rfl
@[simp] theorem pop_snd_run : s.pop.2.run = s.run := rfl
@[simp] theorem pop_snd_fault : s.pop.2.fault = s.fault := rfl
@[simp] theorem pop_snd_out : s.pop.2.out = s.out := rfl

@[simp] theorem advancePc_regs (flow : Flow) : (s.advancePc flow).regs = s.regs := by cases flow <;> rfl
@[simp] theorem advancePc_ir (flow : Flow) : (s.advancePc flow).ir = s.ir := by cases flow <;> rfl
@[simp] theorem advancePc_fl (flow : Flow) : (s.advancePc flow).fl = s.fl := by cases flow <;> rfl
@[simp] theorem advancePc_mem (flow : Flow) : (s.advancePc flow).mem = s.mem := by cases flow <;> rfl
@[simp] theorem advancePc_run (flow : Flow) : (s.advancePc flow).run = s.run := by cases flow <;> rfl
@[simp] theorem advancePc_fault (flow : Flow) : (s.advancePc flow).fault = s.fault := by cases flow <;> rfl
@[simp] theorem advancePc_out (flow : Flow) : (s.advancePc flow).out = s.out := by cases flow <;> rfl

/-! ### Fields an operation writes -/

@[simp] theorem emit_out (v : Byte) : (s.emit v).out = s.out ++ [v] := rfl
@[simp] theorem halt_run : s.halt.run = .halted := rfl
@[simp] theorem setFlag_fl (bit : Nat) (cond : Bool) : (s.setFlag bit cond).fl = setFlagByte s.fl bit cond := rfl
@[simp] theorem fetch_ir : s.fetch.ir = s.readMem s.pc := rfl
@[simp] theorem raise_run (record : FaultLatch) : (s.raise record).run = .halted := rfl
@[simp] theorem raise_fault (record : FaultLatch) : (s.raise record).fault = record := rfl
@[simp] theorem advancePc_next_pc : (s.advancePc .next).pc = s.pc + instrLength s.ir := rfl
@[simp] theorem advancePc_jump_pc (target : Byte) : (s.advancePc (.jump target)).pc = target := rfl

/-! ### Reading registers and memory depends on one field only -/

theorem readReg_congr {s t : State} (h : t.regs = s.regs) (r : RegIdx) : t.readReg r = s.readReg r := by
  simp only [readReg, h]

theorem readMem_congr {s t : State} (h : t.mem = s.mem) (a : Byte) : t.readMem a = s.readMem a := by
  simp only [readMem, h]

@[simp] theorem writeMem_readReg (a v : Byte) (i : RegIdx) : (s.writeMem a v).readReg i = s.readReg i := rfl
@[simp] theorem writeReg_readMem (r : RegIdx) (v : Byte) (i : Byte) : (s.writeReg r v).readMem i = s.readMem i := rfl
@[simp] theorem emit_readReg (v : Byte) (i : RegIdx) : (s.emit v).readReg i = s.readReg i := rfl
@[simp] theorem emit_readMem (v : Byte) (i : Byte) : (s.emit v).readMem i = s.readMem i := rfl
@[simp] theorem halt_readReg (i : RegIdx) : (s.halt).readReg i = s.readReg i := rfl
@[simp] theorem halt_readMem (i : Byte) : (s.halt).readMem i = s.readMem i := rfl
@[simp] theorem setFlag_readReg (bit : Nat) (cond : Bool) (i : RegIdx) : (s.setFlag bit cond).readReg i = s.readReg i := rfl
@[simp] theorem setFlag_readMem (bit : Nat) (cond : Bool) (i : Byte) : (s.setFlag bit cond).readMem i = s.readMem i := rfl
@[simp] theorem fetch_readReg (i : RegIdx) : (s.fetch).readReg i = s.readReg i := rfl
@[simp] theorem fetch_readMem (i : Byte) : (s.fetch).readMem i = s.readMem i := rfl
@[simp] theorem raise_readReg (record : FaultLatch) (i : RegIdx) : (s.raise record).readReg i = s.readReg i := rfl
@[simp] theorem raise_readMem (record : FaultLatch) (i : Byte) : (s.raise record).readMem i = s.readMem i := rfl
@[simp] theorem withPc_readReg (v : Byte) (i : RegIdx) : (s.withPc v).readReg i = s.readReg i := rfl
@[simp] theorem withPc_readMem (v : Byte) (i : Byte) : (s.withPc v).readMem i = s.readMem i := rfl
@[simp] theorem withIr_readReg (v : Byte) (i : RegIdx) : (s.withIr v).readReg i = s.readReg i := rfl
@[simp] theorem withIr_readMem (v : Byte) (i : Byte) : (s.withIr v).readMem i = s.readMem i := rfl
@[simp] theorem withFl_readReg (v : Byte) (i : RegIdx) : (s.withFl v).readReg i = s.readReg i := rfl
@[simp] theorem withFl_readMem (v : Byte) (i : Byte) : (s.withFl v).readMem i = s.readMem i := rfl
@[simp] theorem withRun_readReg (v : RunState) (i : RegIdx) : (s.withRun v).readReg i = s.readReg i := rfl
@[simp] theorem withRun_readMem (v : RunState) (i : Byte) : (s.withRun v).readMem i = s.readMem i := rfl
@[simp] theorem withFault_readReg (v : FaultLatch) (i : RegIdx) : (s.withFault v).readReg i = s.readReg i := rfl
@[simp] theorem withFault_readMem (v : FaultLatch) (i : Byte) : (s.withFault v).readMem i = s.readMem i := rfl
@[simp] theorem withOut_readReg (v : List Byte) (i : RegIdx) : (s.withOut v).readReg i = s.readReg i := rfl
@[simp] theorem withOut_readMem (v : List Byte) (i : Byte) : (s.withOut v).readMem i = s.readMem i := rfl
@[simp] theorem withMem_readReg (v : Memory) (i : RegIdx) : (s.withMem v).readReg i = s.readReg i := rfl
@[simp] theorem withRegs_readMem (v : Vector Byte 8) (i : Byte) : (s.withRegs v).readMem i = s.readMem i := rfl
@[simp] theorem pop_snd_readMem (i : Byte) : s.pop.2.readMem i = s.readMem i := rfl
@[simp] theorem advancePc_readReg (flow : Flow) (i : RegIdx) : (s.advancePc flow).readReg i = s.readReg i :=
  readReg_congr (s.advancePc_regs flow) i
@[simp] theorem advancePc_readMem (flow : Flow) (i : Byte) : (s.advancePc flow).readMem i = s.readMem i :=
  readMem_congr (s.advancePc_mem flow) i

/-! ### Registers -/

/-- What every register holds after one is written. -/
theorem writeReg_readReg (r : RegIdx) (v : Byte) (i : RegIdx) :
    (s.writeReg r v).readReg i = if r = i then v else s.readReg i := by
  simp only [readReg, writeReg, withRegs_regs, Vector.get_eq_getElem, Vector.getElem_set, Fin.ext_iff]

@[simp] theorem writeReg_readReg_same (r : RegIdx) (v : Byte) : (s.writeReg r v).readReg r = v := by
  rw [writeReg_readReg, if_pos rfl]

theorem writeReg_readReg_other {r i : RegIdx} (v : Byte) (h : r ≠ i) : (s.writeReg r v).readReg i = s.readReg i := by
  rw [writeReg_readReg, if_neg h]

/-- Two register files that read the same are the same. -/
theorem regs_ext {s t : State} (h : ∀ r, t.readReg r = s.readReg r) : t.regs = s.regs :=
  Vector.ext fun i hi => by simpa [readReg, Vector.get_eq_getElem] using h ⟨i, hi⟩

/-! ### Memory -/

/-- What every address reads after one byte is written. -/
theorem writeMem_readMem (a v b : Byte) : (s.writeMem a v).readMem b = if a = b then v else s.readMem b := by
  simp only [readMem, writeMem, withMem_mem, Memory.read_write, BitVec.toNat_inj]

@[simp] theorem writeMem_readMem_same (a v : Byte) : (s.writeMem a v).readMem a = v := by
  rw [writeMem_readMem, if_pos rfl]

theorem writeMem_readMem_other {a b : Byte} (v : Byte) (h : a ≠ b) : (s.writeMem a v).readMem b = s.readMem b := by
  rw [writeMem_readMem, if_neg h]

/-- A byte written keeps the canonical form of memory. -/
theorem writeMem_wf {s : State} (a v : Byte) (h : Memory.wf s.mem = true) : Memory.wf (s.writeMem a v).mem = true :=
  Memory.wf_write v h a.isLt

/-! ### The stack -/

/-- The stack pointer is register 7. -/
theorem sp_eq : s.sp = s.readReg 7 := rfl

/-- All that `Push(v)` does to the registers. -/
theorem push_readReg (v : Byte) (i : RegIdx) :
    (s.push v).readReg i = if 7 = i then s.readReg 7 - 1 else s.readReg i := s.writeReg_readReg 7 (s.readReg 7 - 1) i

/-- All that `Push(v)` does to memory. -/
theorem push_readMem (v b : Byte) :
    (s.push v).readMem b = if s.readReg 7 - 1 = b then v else s.readMem b := by
  simp only [push, sp, Config.spIndex, writeMem_readMem, writeReg_readReg_same, writeReg_readMem]

theorem push_mem (v : Byte) : (s.push v).mem = Memory.write s.mem (s.readReg 7 - 1).toNat v := by
  simp only [push, sp, Config.spIndex, writeMem, withMem_mem, writeReg_readReg_same, writeReg_mem]

/-- A push keeps the canonical form of memory. -/
theorem push_wf {s : State} (v : Byte) (h : Memory.wf s.mem = true) : Memory.wf (s.push v).mem = true :=
  Memory.wf_write v h (BitVec.isLt _)

/-- The byte `Pop()` answers. -/
theorem pop_fst : s.pop.1 = s.readMem (s.readReg 7) := rfl

/-- All that `Pop()` does to the registers. -/
theorem pop_snd_readReg (i : RegIdx) :
    s.pop.2.readReg i = if 7 = i then s.readReg 7 + 1 else s.readReg i := s.writeReg_readReg 7 (s.readReg 7 + 1) i

/-! ### The ALU -/

@[simp] theorem applyAlu_add (ra rb : RegIdx) :
    s.applyAlu .add ra rb = s.writeReg ra (s.readReg ra + s.readReg rb) := rfl
@[simp] theorem applyAlu_mul (ra rb : RegIdx) :
    s.applyAlu .mul ra rb = s.writeReg ra (s.readReg ra * s.readReg rb) := rfl
@[simp] theorem applyAlu_and (ra rb : RegIdx) :
    s.applyAlu .and ra rb = s.writeReg ra (s.readReg ra &&& s.readReg rb) := rfl
@[simp] theorem applyAlu_cmp (ra rb : RegIdx) :
    s.applyAlu .cmp ra rb = s.setFlag 0 (s.readReg ra == s.readReg rb) := rfl

/-! ### The PC advance commutes with every update but those of the program counter and the instruction register -/

theorem withRegs_advancePc (v : Vector Byte 8) (flow : Flow) :
    (s.withRegs v).advancePc flow = (s.advancePc flow).withRegs v := by cases flow <;> rfl
theorem withFl_advancePc (v : Byte) (flow : Flow) :
    (s.withFl v).advancePc flow = (s.advancePc flow).withFl v := by cases flow <;> rfl
theorem withMem_advancePc (v : Memory) (flow : Flow) :
    (s.withMem v).advancePc flow = (s.advancePc flow).withMem v := by cases flow <;> rfl
theorem withRun_advancePc (v : RunState) (flow : Flow) :
    (s.withRun v).advancePc flow = (s.advancePc flow).withRun v := by cases flow <;> rfl
theorem withFault_advancePc (v : FaultLatch) (flow : Flow) :
    (s.withFault v).advancePc flow = (s.advancePc flow).withFault v := by cases flow <;> rfl
theorem withOut_advancePc (v : List Byte) (flow : Flow) :
    (s.withOut v).advancePc flow = (s.advancePc flow).withOut v := by cases flow <;> rfl

end State

/-- What each bit of the flags register is after `SetFlag`. -/
theorem setFlagByte_getLsbD (fl : Byte) (bit : Nat) (cond : Bool) (k : Nat) (hbit : bit < 8) :
    (setFlagByte fl bit cond).getLsbD k = if k = bit then cond else fl.getLsbD k := by
  have hk8 : k < 8 ∨ 8 ≤ k := by omega
  rcases hk8 with hk | hk
  · interval_cases bit <;> interval_cases k <;> cases cond <;> simp [setFlagByte]
  · rw [BitVec.getLsbD_of_ge _ _ hk, BitVec.getLsbD_of_ge _ _ hk, if_neg (by omega)]

/-- `EQ` is bit 0 of the flags register. -/
theorem State.eqFlag_eq (s : State) : s.eqFlag = s.fl.getLsbD 0 := rfl

/-- `EQ` depends on the flags register only. -/
theorem State.eqFlag_congr {s t : State} (h : t.fl = s.fl) : t.eqFlag = s.eqFlag := by
  simp only [State.eqFlag_eq, h]

/-- `EQ` right after it is set. -/
@[simp] theorem State.setFlag_eqFlag (s : State) (cond : Bool) : (s.setFlag 0 cond).eqFlag = cond := by
  rw [State.eqFlag_eq, State.setFlag_fl, setFlagByte_getLsbD _ _ _ _ (by decide), if_pos rfl]

@[simp] theorem State.advancePc_eqFlag (s : State) (flow : Flow) : (s.advancePc flow).eqFlag = s.eqFlag :=
  State.eqFlag_congr (s.advancePc_fl flow)

@[simp] theorem State.withRegs_eqFlag (s : State) (v : Vector Byte 8) : (s.withRegs v).eqFlag = s.eqFlag := rfl
@[simp] theorem State.withPc_eqFlag (s : State) (v : Byte) : (s.withPc v).eqFlag = s.eqFlag := rfl
@[simp] theorem State.withIr_eqFlag (s : State) (v : Byte) : (s.withIr v).eqFlag = s.eqFlag := rfl
@[simp] theorem State.withMem_eqFlag (s : State) (v : Memory) : (s.withMem v).eqFlag = s.eqFlag := rfl
@[simp] theorem State.withRun_eqFlag (s : State) (v : RunState) : (s.withRun v).eqFlag = s.eqFlag := rfl
@[simp] theorem State.withFault_eqFlag (s : State) (v : FaultLatch) : (s.withFault v).eqFlag = s.eqFlag := rfl
@[simp] theorem State.withOut_eqFlag (s : State) (v : List Byte) : (s.withOut v).eqFlag = s.eqFlag := rfl

/-- A handler that ran answers the state after the PC advance, and nothing else. -/
@[simp] theorem complete_eq (s : State) (flow : Flow) : complete s flow = .next (s.advancePc flow) := rfl

end Sys2Proof.Machine
end

