-- ==== Sys2Proof/Laws/PerInstr.lean ====
section
/-! SUPPORT. Facts about each instruction as syntax, one lemma for each constructor. -/

namespace Sys2Proof.Laws

/-- An instruction has as many operand bytes as its format says (30_encoding.md R83). -/
def OperandBytes.Statement (i : Instr) : Prop := i.operandBytes.length = i.mnemonic.format.operandCount

theorem OperandBytes.nop : OperandBytes.Statement .nop := rfl
theorem OperandBytes.hlt : OperandBytes.Statement .hlt := rfl
theorem OperandBytes.ldi (ra : RegIdx) (imm : Byte) : OperandBytes.Statement (.ldi ra imm) := rfl
theorem OperandBytes.prn (ra : RegIdx) : OperandBytes.Statement (.prn ra) := rfl
theorem OperandBytes.add (ra rb : RegIdx) : OperandBytes.Statement (.add ra rb) := rfl
theorem OperandBytes.mul (ra rb : RegIdx) : OperandBytes.Statement (.mul ra rb) := rfl
theorem OperandBytes.and (ra rb : RegIdx) : OperandBytes.Statement (.and ra rb) := rfl
theorem OperandBytes.cmp (ra rb : RegIdx) : OperandBytes.Statement (.cmp ra rb) := rfl
theorem OperandBytes.push (ra : RegIdx) : OperandBytes.Statement (.push ra) := rfl
theorem OperandBytes.pop (ra : RegIdx) : OperandBytes.Statement (.pop ra) := rfl
theorem OperandBytes.call (ra : RegIdx) : OperandBytes.Statement (.call ra) := rfl
theorem OperandBytes.ret : OperandBytes.Statement .ret := rfl
theorem OperandBytes.jmp (ra : RegIdx) : OperandBytes.Statement (.jmp ra) := rfl
theorem OperandBytes.jeq (ra : RegIdx) : OperandBytes.Statement (.jeq ra) := rfl
theorem OperandBytes.jne (ra : RegIdx) : OperandBytes.Statement (.jne ra) := rfl

/-- An instruction's operand bytes, with any bytes after them, are read back as that instruction, whatever the mode
(30_encoding.md R84, R91). -/
def ReadBack.Statement (i : Instr) : Prop :=
  ∀ (mode : RegIdxMode) (rest : List Byte),
    instrOf mode i.mnemonic ((i.operandBytes ++ rest).getD 0 0) ((i.operandBytes ++ rest).getD 1 0) = some i

theorem ReadBack.nop : ReadBack.Statement .nop := fun _ _ => rfl
theorem ReadBack.hlt : ReadBack.Statement .hlt := fun _ _ => rfl
theorem ReadBack.ldi (ra : RegIdx) (imm : Byte) : ReadBack.Statement (.ldi ra imm) :=
  fun mode _ => withReg_regByte mode ra fun r => .ldi r imm
theorem ReadBack.prn (ra : RegIdx) : ReadBack.Statement (.prn ra) := fun mode _ => withReg_regByte mode ra .prn
theorem ReadBack.add (ra rb : RegIdx) : ReadBack.Statement (.add ra rb) :=
  fun mode _ => withRegs_regByte mode ra rb .add
theorem ReadBack.mul (ra rb : RegIdx) : ReadBack.Statement (.mul ra rb) :=
  fun mode _ => withRegs_regByte mode ra rb .mul
theorem ReadBack.and (ra rb : RegIdx) : ReadBack.Statement (.and ra rb) :=
  fun mode _ => withRegs_regByte mode ra rb .and
theorem ReadBack.cmp (ra rb : RegIdx) : ReadBack.Statement (.cmp ra rb) :=
  fun mode _ => withRegs_regByte mode ra rb .cmp
theorem ReadBack.push (ra : RegIdx) : ReadBack.Statement (.push ra) := fun mode _ => withReg_regByte mode ra .push
theorem ReadBack.pop (ra : RegIdx) : ReadBack.Statement (.pop ra) := fun mode _ => withReg_regByte mode ra .pop
theorem ReadBack.call (ra : RegIdx) : ReadBack.Statement (.call ra) := fun mode _ => withReg_regByte mode ra .call
theorem ReadBack.ret : ReadBack.Statement .ret := fun _ _ => rfl
theorem ReadBack.jmp (ra : RegIdx) : ReadBack.Statement (.jmp ra) := fun mode _ => withReg_regByte mode ra .jmp
theorem ReadBack.jeq (ra : RegIdx) : ReadBack.Statement (.jeq ra) := fun mode _ => withReg_regByte mode ra .jeq
theorem ReadBack.jne (ra : RegIdx) : ReadBack.Statement (.jne ra) := fun mode _ => withReg_regByte mode ra .jne

end Sys2Proof.Laws
end

