-- ==== Sys2Proof/Laws/Step.lean ====
section
/-! SUPPORT. What each instruction's handler answers, and the cases of a step, each said once. -/

namespace Sys2Proof.Machine

/-! ### The handler table -/

variable (s : State) (ra rb : RegIdx)

@[simp] theorem exec_nop : exec .nop s =
    .next (s.advancePc .next) := rfl
@[simp] theorem exec_hlt : exec .hlt s =
    .next (s.halt.advancePc .next) := rfl
@[simp] theorem exec_ldi (imm : Byte) : exec (.ldi ra imm) s =
    .next ((s.writeReg ra imm).advancePc .next) := rfl
@[simp] theorem exec_prn : exec (.prn ra) s =
    .next ((s.emit (s.readReg ra)).advancePc .next) := rfl
@[simp] theorem exec_add : exec (.add ra rb) s =
    .next ((s.writeReg ra (s.readReg ra + s.readReg rb)).advancePc .next) := rfl
@[simp] theorem exec_mul : exec (.mul ra rb) s =
    .next ((s.writeReg ra (s.readReg ra * s.readReg rb)).advancePc .next) := rfl
@[simp] theorem exec_and : exec (.and ra rb) s =
    .next ((s.writeReg ra (s.readReg ra &&& s.readReg rb)).advancePc .next) := rfl
@[simp] theorem exec_cmp : exec (.cmp ra rb) s =
    .next ((s.setFlag 0 (s.readReg ra == s.readReg rb)).advancePc .next) := rfl
@[simp] theorem exec_push : exec (.push ra) s =
    .next ((s.push (s.readReg ra)).advancePc .next) := rfl
@[simp] theorem exec_pop : exec (.pop ra) s =
    .next ((s.pop.2.writeReg ra s.pop.1).advancePc .next) := rfl
@[simp] theorem exec_call : exec (.call ra) s =
    .next ((s.push (s.pc + 2)).advancePc (.jump ((s.push (s.pc + 2)).readReg ra))) := rfl
@[simp] theorem exec_ret : exec .ret s =
    .next (s.pop.2.advancePc (.jump s.pop.1)) := rfl
@[simp] theorem exec_jmp : exec (.jmp ra) s =
    .next (s.advancePc (.jump (s.readReg ra))) := rfl
@[simp] theorem exec_jeq : exec (.jeq ra) s =
    .next (s.advancePc (if s.eqFlag then .jump (s.readReg ra) else .next)) := rfl
@[simp] theorem exec_jne : exec (.jne ra) s =
    .next (s.advancePc (if s.eqFlag then .next else .jump (s.readReg ra))) := rfl

/-- Every instruction answers a next state. -/
theorem exec_completes (i : Instr) : ∃ t, exec i s = .next t := by cases i <;> exact ⟨_, rfl⟩

/-! ### The step -/

variable {s}

@[simp] theorem stepWith_halted {cfg : Config} (h : s.run = .halted) : stepWith cfg s = .next s := by
  simp only [stepWith, h, State.haltedStep]

theorem stepWith_running {cfg : Config} (h : s.run = .running) : stepWith cfg s = runFetched cfg s.fetch := by
  simp only [stepWith, h]

/-- What decoding at the program counter reads: the three bytes from `pc` on. -/
theorem fetch_decoded (cfg : Config) (s : State) :
    s.fetch.decoded cfg = decode cfg (s.readMem s.pc) (s.readMem (s.pc + 1)) (s.readMem (s.pc + 2)) := rfl

/-- Everything a step can do: nothing while halted; one of the two faults; or the decoded instruction. -/
theorem stepWith_cases {cfg : Config} {t : State} (h : stepWith cfg s = .next t) :
    (s.run = .halted ∧ t = s) ∨
    (s.run = .running ∧ s.fetch.decoded cfg = .illegalOpcode ∧ t = s.fetch.raiseIllegalOpcode) ∨
    (s.run = .running ∧ s.fetch.decoded cfg = .illegalOperand ∧ t = s.fetch.raiseIllegalOperand) ∨
    (s.run = .running ∧ ∃ i, s.fetch.decoded cfg = .instr i ∧ exec i s.fetch = .next t) := by
  cases hr : s.run with
  | halted => rw [stepWith_halted hr] at h; cases h; exact .inl ⟨rfl, rfl⟩
  | running =>
    rw [stepWith_running hr, runFetched] at h
    split at h
    · next hd => cases h; exact .inr (.inl ⟨rfl, hd, rfl⟩)
    · next hd => cases h; exact .inr (.inr (.inl ⟨rfl, hd, rfl⟩))
    · next i hd => exact .inr (.inr (.inr ⟨rfl, i, hd, h⟩))

/-- Placing a fetch word keeps the canonical form of memory. -/
theorem State.withFetchWord_wf (nbits w : Nat) (h : Memory.wf s.mem = true) :
    Memory.wf (s.withFetchWord nbits w).mem = true :=
  State.writeMem_wf _ _ (State.writeMem_wf _ _ (State.writeMem_wf _ _ h))

/-- Poking an image keeps the canonical form of memory. -/
theorem State.pokeAll_wf {s : State} (image : List (Byte × Byte)) (h : Memory.wf s.mem = true) :
    Memory.wf (s.pokeAll image).mem = true := by
  induction image generalizing s with
  | nil => exact h
  | cons cell later ih => exact ih (State.writeMem_wf cell.1 cell.2 h)

end Sys2Proof.Machine
end

