-- ==== Sys2Proof/Tests/Slice0.lean ====
section
/-! SUPPORT. The model's own tests: the well-formedness checks refuse, every constructor's word decodes, single steps
from the spec's vectors (95_test_vectors.md, named V<n> and P<n>), and a witness for each statement that has
hypotheses. Every expected result is the spec's. -/

namespace Sys2Proof.Tests

open Sys2Proof Sys2Proof.Machine

/-! ### Small states -/

/-- Consecutive bytes poked from an address on, wrapping at the top. -/
def place : Byte → List Byte → State → State
  | _, [], s => s
  | a, b :: bytes, s => place (a + 1) bytes (s.poke a b)

/-- The reset state with bytes at an address and the program counter there. -/
def loadedAt (pc : Byte) (bytes : List Byte) : State := (place pc bytes State.reset).withPc pc

/-- The state a result holds, if it is a next state. -/
def after : Result → Option State
  | .next t => some t
  | .fault _ => none
  | .refused _ => none

/-- What one step with the default parameters leaves, seen through a function. -/
def seen {α : Type} (s : State) (f : State → α) : Option α := (after (step s)).map f

/-- The parameters with the masking mode. -/
def masking : Config := { opmap := OpMap.standard, regIdxMode := .mask3 }

/-! ### The well-formedness checks refuse an ill-formed term -/

/-- A map that gives NOP the byte of HLT. -/
def mapWithTwin : OpMap := fun m => if m = .nop then 0x01 else OpMap.standard m

/-- A map that gives PRN, which has one operand, a byte with an operand count of 2. -/
def mapWithWrongCount : OpMap := fun m => if m = .prn then 0x83 else OpMap.standard m

theorem test_register_byte_above_7_is_ill_formed : regByteOk 0x08 = false ∧ regByteOk 0x07 = true := by decide
theorem test_twin_bytes_are_ill_formed : mapWithTwin.distinct = false ∧ mapWithTwin.admissible = false := by decide
theorem test_wrong_count_is_ill_formed :
    mapWithWrongCount.countsAgree = false ∧ mapWithWrongCount.admissible = false ∧
    Instr.wellFormed mapWithWrongCount (.prn 0) = false ∧ Instr.wellFormed OpMap.standard (.prn 0) = true := by decide

/-! ### Decoding, by words written out from 30_encoding.md R83, R87, R92 -/

theorem test_decode_nop : decode Config.standard 0b00000000 0xFF 0xFF = .instr .nop := by decide
theorem test_decode_hlt : decode Config.standard 0b00000001 0xFF 0xFF = .instr .hlt := by decide
theorem test_decode_ldi : decode Config.standard 0b10000010 0b00000101 0b11111010 = .instr (.ldi 5 250) := by decide
theorem test_decode_prn : decode Config.standard 0b01000011 0b00000011 0xFF = .instr (.prn 3) := by decide
theorem test_decode_add : decode Config.standard 0b10010100 0b00000001 0b00000110 = .instr (.add 1 6) := by decide
theorem test_decode_mul : decode Config.standard 0b10010101 0b00000010 0b00000101 = .instr (.mul 2 5) := by decide
theorem test_decode_and : decode Config.standard 0b10010110 0b00000111 0b00000000 = .instr (.and 7 0) := by decide
theorem test_decode_cmp : decode Config.standard 0b10110111 0b00000100 0b00000011 = .instr (.cmp 4 3) := by decide
theorem test_decode_push : decode Config.standard 0b01001000 0b00000110 0xFF = .instr (.push 6) := by decide
theorem test_decode_pop : decode Config.standard 0b01001001 0b00000001 0xFF = .instr (.pop 1) := by decide
theorem test_decode_call : decode Config.standard 0b01001010 0b00000010 0xFF = .instr (.call 2) := by decide
theorem test_decode_ret : decode Config.standard 0b00001011 0xFF 0xFF = .instr .ret := by decide
theorem test_decode_jmp : decode Config.standard 0b01001100 0b00000111 0xFF = .instr (.jmp 7) := by decide
theorem test_decode_jeq : decode Config.standard 0b01001101 0b00000100 0xFF = .instr (.jeq 4) := by decide
theorem test_decode_jne : decode Config.standard 0b01001110 0b00000101 0xFF = .instr (.jne 5) := by decide

/-- V81 to V85: neighbours of legal opcodes are illegal. -/
theorem test_decode_neighbours :
    ([0x20, 0xA7, 0xC0, 0x0F, 0x05] : List Byte).all (fun op => decode Config.standard op 0 0 == .illegalOpcode) := by
  decide

theorem test_encode_ldi_push_ret :
    encode (.ldi 0 0xFA) = [0x82, 0x00, 0xFA] ∧ encode (.push 1) = [0x48, 0x01] ∧ encode .ret = [0x0B] := by decide

/-- A table word counts its bits from the first byte's least significant bit; bits from `nbits` up are 0. -/
theorem test_table_word :
    decodeTableWord 24 0xFA0782 = some (.ldi 7 0xFA) ∧ decodeTableWord 8 0xFFFF43 = some (.prn 0) ∧
    decodeTableWord 8 0x0F = none := by decide

/-- The source's spelling (30_encoding.md R92). -/
theorem test_render :
    (Instr.ldi 0 250).render = "LDI R0, 250" ∧ (Instr.cmp 0 1).render = "CMP R0, R1" ∧ Instr.ret.render = "RET" := by
  decide

/-- The worked lengths of S10. -/
theorem test_lengths :
    ([0x00, 0x0B] : List Byte).all (instrLength · == 1) ∧ ([0x43, 0x4E] : List Byte).all (instrLength · == 2) ∧
    ([0x82, 0xB7] : List Byte).all (instrLength · == 3) := by decide

/-! ### Single steps -/

/-- V1, V2. -/
theorem test_nop : seen (loadedAt 0x10 [0x00]) (fun t => (t.pc, t.ir)) = some (0x11, 0x00) := by decide
theorem test_nop_wraps : seen (loadedAt 0xFF [0x00]) (·.pc) = some 0x00 := by decide

/-- V3, V4. -/
theorem test_hlt :
    seen (loadedAt 0x05 [0x01]) (fun t => (t.pc, t.ir, t.run, t.fault, t.status)) =
      some (0x06, 0x01, .halted, .none, .halted) := by decide
theorem test_hlt_wraps : seen (loadedAt 0xFF [0x01]) (fun t => (t.pc, t.run)) = some (0x00, .halted) := by decide

/-- V11, V13. -/
theorem test_ldi_moves_stack_pointer : seen (loadedAt 0 [0x82, 0x07, 0x40]) (fun t => (t.sp, t.pc)) = some (0x40, 3) := by decide
theorem test_ldi_over_the_top : seen (loadedAt 0xFE [0x82, 0x01, 0x77]) (fun t => (t.readReg 1, t.pc)) = some (0x77, 0x01) := by
  decide

/-- V16, V17. -/
theorem test_prn :
    seen ((loadedAt 3 [0x43, 0x00]).writeReg 0 250) (fun t => (t.out, t.pc, t.readReg 0)) = some ([250], 5, 250) := by decide
theorem test_prn_appends :
    seen ((loadedAt 0 [0x43, 0x07]).withOut [9]) (fun t => (t.out, t.pc)) = some ([9, 243], 2) := by decide

/-- V23, V33e. -/
theorem test_add_wraps :
    seen ((((loadedAt 0 [0x94, 0x00, 0x01]).writeReg 0 255).writeReg 1 255).withFl 0b101)
      (fun t => (t.readReg 0, t.readReg 1, t.pc, t.fl)) = some (254, 255, 3, 0b101) := by decide
theorem test_add_same_register : seen (loadedAt 0 [0x94, 0x07, 0x07]) (·.sp) = some 0xE6 := by decide

/-- V28, V33c. -/
theorem test_mul_wraps :
    seen ((((loadedAt 0 [0x95, 0x00, 0x01]).writeReg 0 255).writeReg 1 2).withFl 0b101)
      (fun t => (t.readReg 0, t.readReg 1, t.pc, t.fl)) = some (254, 2, 3, 0b101) := by decide
theorem test_mul_same_register : seen ((loadedAt 0 [0x95, 0x00, 0x00]).writeReg 0 17) (·.readReg 0) = some 33 := by decide

/-- V31 and the example of R162. -/
theorem test_and :
    seen (((loadedAt 0 [0x96, 0x02, 0x03]).writeReg 2 0xCC).writeReg 3 0xAA) (fun t => (t.readReg 2, t.readReg 3, t.pc)) =
      some (0x88, 0xAA, 3) := by decide

/-- V36, V38. -/
theorem test_cmp_equal_keeps_bits :
    seen ((((loadedAt 0 [0xB7, 0x00, 0x01]).writeReg 0 7).writeReg 1 7).withFl 0b110) (fun t => (t.fl, t.pc)) =
      some (0b111, 3) := by decide
theorem test_cmp_unequal_keeps_bits :
    seen ((((loadedAt 0 [0xB7, 0x00, 0x01]).writeReg 0 3).writeReg 1 5).withFl 0xFF) (·.fl) = some 0xFE := by decide

/-- V44, V48. -/
theorem test_push_stack_pointer :
    seen (loadedAt 0 [0x48, 0x07]) (fun t => (t.readMem 0xF2, t.sp, t.pc)) = some (0xF3, 0xF2, 2) := by decide
theorem test_push_over_own_operand :
    seen ((loadedAt 0xF1 [0x48, 0x00]).writeReg 0 1) (fun t => (t.readMem 0xF2, t.sp, t.pc)) = some (0x01, 0xF2, 0xF3) := by
  decide

/-- V43, V45. -/
theorem test_pop_wraps :
    seen (((loadedAt 0 [0x49, 0x02]).writeReg 7 0xFF).poke 0xFF 0x5A) (fun t => (t.readReg 2, t.sp, t.pc)) =
      some (0x5A, 0x00, 2) := by decide
theorem test_pop_stack_pointer :
    seen (((loadedAt 0 [0x49, 0x07]).writeReg 7 0xF2).poke 0xF2 0x40) (fun t => (t.sp, t.pc)) = some (0x40, 2) := by decide

/-- V52, V53. -/
theorem test_call_over_the_top :
    seen ((loadedAt 0xFF [0x4A, 0x00]).writeReg 0 0x10) (fun t => (t.readMem 0xF2, t.sp, t.pc)) = some (0x01, 0xF2, 0x10) := by
  decide
theorem test_call_stack_pointer :
    seen (loadedAt 0x20 [0x4A, 0x07]) (fun t => (t.readMem 0xF2, t.sp, t.pc)) = some (0x22, 0xF2, 0xF2) := by decide

/-- V51, V54. -/
theorem test_ret :
    seen (((loadedAt 9 [0x0B]).writeReg 7 0xF2).poke 0xF2 5) (fun t => (t.pc, t.sp, t.readMem 0xF2)) = some (5, 0xF3, 5) := by
  decide
theorem test_ret_of_nothing : seen (loadedAt 0 [0x0B]) (fun t => (t.pc, t.sp)) = some (0, 0xF4) := by decide

/-- V55. -/
theorem test_jmp : seen ((loadedAt 25 [0x4C, 0x03]).writeReg 3 15) (·.pc) = some 15 := by decide

/-- V64, V65. -/
theorem test_jeq_tests_the_bit :
    seen (((loadedAt 0 [0x4D, 0x04]).writeReg 4 27).withFl 0b101) (fun t => (t.pc, t.fl)) = some (27, 0b101) := by decide
theorem test_jeq_falls_through : seen (((loadedAt 0 [0x4D, 0x04]).writeReg 4 27).withFl 0b110) (·.pc) = some 2 := by decide

/-- V66, V67. -/
theorem test_jne_tests_the_bit :
    seen (((loadedAt 0 [0x4E, 0x04]).writeReg 4 27).withFl 0b110) (fun t => (t.pc, t.fl)) = some (27, 0b110) := by decide
theorem test_jne_falls_through : seen (((loadedAt 0 [0x4E, 0x04]).writeReg 4 27).withFl 0b101) (·.pc) = some 2 := by decide

/-- V80, V86: the fault, and the step after it. -/
theorem test_illegal_opcode :
    seen (loadedAt 3 [0xFF]) id =
      some (((((loadedAt 3 [0xFF]).withIr 0xFF).withRun .halted).withFault (.illegalOpcode 3 0xFF))) := by decide
theorem test_step_after_fault :
    (seen (loadedAt 3 [0xFF]) (fun t => (seen t id = some t : Bool) && t.status == .fault .illegalOpcode)) = some true := by
  decide

/-- V14, V39a, V68: the register byte is checked in either position, taken or not. -/
theorem test_illegal_operand_ldi :
    seen (loadedAt 0 [0x82, 0x08, 0x01]) (fun t => (t.run, t.fault, t.pc, t.regs)) =
      some (.halted, .illegalOperand 0 0x82 0x08 0x01, 0, State.reset.regs) := by decide
theorem test_illegal_operand_b_and_untaken :
    seen (loadedAt 0 [0xB7, 0x01, 0x10]) (·.fault) = some (.illegalOperand 0 0xB7 0x01 0x10) ∧
    seen (loadedAt 0 [0x4D, 0x09]) (·.fault) = some (.illegalOperand 0 0x4D 0x09 0x00) := by decide

/-- P9 with the masking mode. -/
theorem test_masking_mode :
    (after (stepWith masking (loadedAt 0 [0x82, 0x08, 0x01, 0x01]))).map (fun t => (t.readReg 0, t.pc, t.run)) =
      some (1, 3, .running) := by decide

/-- Memory keeps its canonical form: a zero byte is not listed. -/
theorem test_memory_form :
    (((State.reset.poke 9 5).poke 3 1).poke 9 0).mem = [(3, 1)] ∧
    ((State.reset.poke 9 5).poke 3 1).mem = [(3, 1), (9, 5)] := by decide

/-- The rows of 20_memory.md R58 for CALL, POP and an illegal opcode. -/
theorem test_accesses :
    accessesWith Config.standard (loadedAt 0xFE [0x4A, 0x00]) =
      [.read 0xFE, .read 0xFF, .read 0x00, .write 0xF2 0x00] ∧
    accessesWith Config.standard (loadedAt 3 [0x49, 0x01]) = [.read 3, .read 4, .read 5, .read 0xF3] ∧
    accessesWith Config.standard (loadedAt 3 [0xFF]) = [.read 3] := by decide

/-- The codes of 60_exceptions.md R210. -/
theorem test_fault_codes :
    FaultLatch.none.code = 0 ∧ (FaultLatch.illegalOpcode 0 0).code = 1 ∧ (FaultLatch.addressRange 0).code = 2 ∧
    (FaultLatch.illegalOperand 0 0 0 0).code = 3 := by decide

/-! ### Witnesses: states and operands that meet the hypotheses of the statements -/

/-- The default map is admissible: DecodeLooksUpWholeByte, DecodeOfEncodeIsInstr, LengthIsReadOffOpcode,
MeaningIsIndependentOfMap. -/
theorem witness_admissible_map : Config.standard.opmap.Admissible := (OpMap.admissible_iff _).mp (by decide)

/-- A second admissible map, the first one with another CMP byte: MeaningIsIndependentOfMap. -/
theorem witness_other_admissible_map :
    OpMap.Admissible (fun m => if m = .cmp then 0xA7 else OpMap.standard m) := (OpMap.admissible_iff _).mp (by decide)

/-- Every fall-through statement's `AdvancedBy`: a state whose `ir` holds the byte an admissible map gives. -/
theorem witness_AdvancedBy (m : Mnemonic) : ∃ s : State, ∃ om : OpMap, om.Admissible ∧ s.ir = om m :=
  ⟨State.reset.withIr (OpMap.standard m), OpMap.standard, witness_admissible_map, rfl⟩

theorem witness_OperandCountThreeIsIllegal : (0xC0 : Byte) >>> 6 = 3 := by decide
theorem witness_EncodeOfDecodeIsBytes :
    Config.standard.regIdxMode = .fault ∧ decode Config.standard 0x82 0x07 0xFA = .instr (.ldi 7 0xFA) := by decide
theorem witness_CanonicalMemoryIsItsBytes :
    Memory.wf [(0, 1), (255, 7)] = true ∧
    ∀ a : Byte, Memory.read [(0, 1), (255, 7)] a.toNat = Memory.read [(0, 1), (255, 7)] a.toNat := ⟨by decide, fun _ => rfl⟩
theorem witness_SetFlagChangesOneBit : (7 : Nat) < 8 ∧ (0 : Nat) < 8 := by decide
theorem witness_ConditionalJumpsTestEqBit :
    (State.reset.withFl 0b101).fl.getLsbD 0 = true ∧ (State.reset.withFl 0b110).fl.getLsbD 0 = false := by decide

theorem witness_PopLoadsRegister : (6 : RegIdx) ≠ 7 := by decide

/-- CALL at 3, then a RET whose top of stack is the pushed byte. -/
theorem witness_CallAndRetAreSymmetric :
    ∃ t u : State, exec (.call 0) (State.reset.withPc 3) = .next t ∧ u.readReg 7 = t.readReg 7 ∧
      u.readMem (u.readReg 7) = t.readMem (t.readReg 7) := ⟨_, _, rfl, rfl, rfl⟩
theorem witness_PushThenPopRestores : (∃ t, exec (.push 0) State.reset = .next t) ∧ (1 : RegIdx) ≠ 7 :=
  ⟨⟨_, rfl⟩, by decide⟩
theorem witness_CompareThenBranchIsExclusive :
    (∃ t, exec (.cmp 0 1) State.reset = .next t) ∧ State.reset.readReg 0 = State.reset.readReg 1 ∧
    (∃ t, exec (.cmp 0 7) State.reset = .next t) ∧ State.reset.readReg 0 ≠ State.reset.readReg 7 :=
  ⟨⟨_, rfl⟩, by decide, ⟨_, rfl⟩, by decide⟩

/-- A state that differs in a register ADD neither reads nor writes. -/
theorem witness_RegisterUseFollowsTable :
    (∃ t, exec (.add 0 1) State.reset = .next t) ∧
    ((State.reset.writeReg 5 9).withRegs State.reset.regs = State.reset) ∧
    (∀ r ∈ regsRead (State.reset.fl.getLsbD 0) (.add 0 1), (State.reset.writeReg 5 9).readReg r = State.reset.readReg r) :=
  ⟨⟨_, rfl⟩, rfl, by decide⟩

/-- JEQ with other flag bits than bit 0 changed. -/
theorem witness_OnlyCmpWritesAndJumpsReadFlags :
    (∃ t, exec (.jeq 0) State.reset = .next t) ∧ (0b110 : Byte).getLsbD 0 = State.reset.fl.getLsbD 0 ∧
    ∃ t, stepWith Config.standard (loadedAt 0 [0xB7, 0x00, 0x01]) = .next t := ⟨⟨_, rfl⟩, by decide, ⟨_, rfl⟩⟩

theorem witness_StepRunsDecodedInstruction :
    (loadedAt 0xFE [0x82, 0x01, 0x77]).run = .running ∧
    decode Config.standard ((loadedAt 0xFE [0x82, 0x01, 0x77]).readMem 0xFE) ((loadedAt 0xFE [0x82, 0x01, 0x77]).readMem 0xFF)
      ((loadedAt 0xFE [0x82, 0x01, 0x77]).readMem 0x00) = .instr (.ldi 1 0x77) := by decide

/-- An LDI over the top of memory. -/
theorem witness_StepRunsEncodedInstruction :
    (loadedAt 0xFE [0x82, 0x01, 0x77]).run = .running ∧
    ∀ k : Nat, k < (encodeWith Config.standard (.ldi 1 0x77)).length →
      (loadedAt 0xFE [0x82, 0x01, 0x77]).readMem (0xFE + BitVec.ofNat 8 k) =
        (encodeWith Config.standard (.ldi 1 0x77)).getD k 0 := by decide

theorem witness_FetchWordIsRunNext : decodeTableWord 24 0x050394 = some (.add 3 5) := by decide
theorem witness_FetchWritesInstructionRegister :
    (loadedAt 3 [0xFF]).run = .running ∧ ∃ t, stepWith Config.standard (loadedAt 3 [0xFF]) = .next t := ⟨rfl, ⟨_, rfl⟩⟩
theorem witness_FallThroughAdvancesByLength :
    (loadedAt 0 [0x43, 0x07]).run = .running ∧ (loadedAt 0 [0x43, 0x07]).fetch.decoded Config.standard = .instr (.prn 7) ∧
    ¬ Transfers (.prn 7) ∧ ∃ t, stepWith Config.standard (loadedAt 0 [0x43, 0x07]) = .next t :=
  ⟨rfl, by decide, id, ⟨_, rfl⟩⟩
theorem witness_InstructionRegisterIsUnobservable :
    State.reset.run = .running ∧ (0x3F : Byte) >>> 6 = State.reset.ir >>> 6 ∧ ∃ t, exec .nop State.reset = .next t :=
  ⟨rfl, by decide, ⟨_, rfl⟩⟩

/-- A PUSH writes one listed byte; another memory that agrees on the bytes read. -/
theorem witness_StepTouchesOnlyItsAccesses :
    (∃ t, stepWith Config.standard (loadedAt 0 [0x48, 0x07]) = .next t) ∧
    .write 0xF2 0xF3 ∈ accessesWith Config.standard (loadedAt 0 [0x48, 0x07]) ∧
    (∀ v, .write 0xF1 v ∉ accessesWith Config.standard (loadedAt 0 [0x48, 0x07])) ∧
    (∀ a : Byte, .read a ∈ accessesWith Config.standard (loadedAt 0 [0x48, 0x07]) →
      ((loadedAt 0 [0x48, 0x07]).withMem [(0, 0x48), (1, 7), (9, 9)]).readMem a = (loadedAt 0 [0x48, 0x07]).readMem a) :=
  ⟨⟨_, rfl⟩, by decide, by decide, by decide⟩

theorem witness_OutputGrowsByPrnOnly :
    (loadedAt 0 [0x43, 0x07]).fetch.decoded Config.standard = .instr (.prn 7) ∧
    (∃ t, stepWith Config.standard (loadedAt 0 [0x43, 0x07]) = .next t) ∧
    (∀ ra, State.reset.fetch.decoded Config.standard ≠ .instr (.prn ra)) ∧
    ∃ t, stepWith Config.standard State.reset = .next t := ⟨by decide, ⟨_, rfl⟩, by decide, ⟨_, rfl⟩⟩
theorem witness_ZeroMemoryIsSlideOfNops : State.reset.run = .running ∧ ∀ a : Byte, State.reset.readMem a = 0 :=
  ⟨rfl, fun _ => rfl⟩
theorem witness_IllegalOpcodeHaltsPrecisely :
    (loadedAt 3 [0xFF]).run = .running ∧ ∀ m, Config.standard.opmap m ≠ (loadedAt 3 [0xFF]).readMem 3 :=
  ⟨rfl, fun m => by cases m <;> decide⟩

/-- A bad operand A of a JEQ not taken, and a bad operand B of a CMP. -/
theorem witness_IllegalOperandHaltsPrecisely :
    Config.standard.regIdxMode = .fault ∧
    (Config.standard.opmap .jeq = (loadedAt 0 [0x4D, 0x09]).readMem 0 ∧ Mnemonic.jeq.format ≠ .f0 ∧
      8 ≤ ((loadedAt 0 [0x4D, 0x09]).readMem 1).toNat) ∧
    (Config.standard.opmap .cmp = (loadedAt 0 [0xB7, 0x01, 0x10]).readMem 0 ∧ Mnemonic.cmp.format = .f2rr ∧
      8 ≤ ((loadedAt 0 [0xB7, 0x01, 0x10]).readMem 2).toNat) := by decide
theorem witness_MaskModeNeverRefusesOperands : masking.regIdxMode = .mask3 ∧ ∃ m, masking.opmap m = 0x82 :=
  ⟨rfl, .ldi, rfl⟩

/-- The three ways to halt. -/
theorem witness_HaltingHasThreeCauses :
    ((loadedAt 5 [0x01]).fault = .none ∧ (loadedAt 5 [0x01]).fetch.decoded Config.standard = .instr .hlt) ∧
    (loadedAt 3 [0xFF]).fetch.decoded Config.standard = .illegalOpcode ∧
    (loadedAt 0 [0x82, 0x08]).fetch.decoded Config.standard = .illegalOperand ∧
    ∃ t, stepWith Config.standard (loadedAt 5 [0x01]) = .next t := ⟨by decide, by decide, by decide, ⟨_, rfl⟩⟩
theorem witness_HaltedUntilReset :
    State.reset.halt.run = .halted ∧ PortEvent.reset ∉ [PortEvent.poke 4 9, PortEvent.step] := by decide

/-- The states after a HLT and after an illegal opcode meet the invariant: StatusTellsHaltFromFault, StepKeepsInvariant,
PokeChangesOneByte. -/
theorem witness_invariant_halted : (State.reset.halt).Inv Config.standard :=
  ⟨rfl, trivial, fun k _ => by simp [State.reset]⟩
theorem witness_invariant_faulted : ((loadedAt 3 [0xFF]).fetch.raiseIllegalOpcode).Inv Config.standard :=
  ⟨by decide, ⟨rfl, rfl, rfl, by decide⟩, fun k _ => by simp [loadedAt, place, State.poke, State.raiseIllegalOpcode, State.reset]⟩
theorem witness_StepKeepsInvariant :
    (loadedAt 0 [0x48, 0x07]).Inv Config.standard ∧ ∃ t, step (loadedAt 0 [0x48, 0x07]) = .next t :=
  ⟨⟨by decide, trivial, fun k _ => by simp [loadedAt, place, State.poke, State.reset]⟩, ⟨_, rfl⟩⟩

end Sys2Proof.Tests
end

/-! # Proofs about the state (10_state.md): what a step reads, writes and keeps -/

namespace Sys2Proof.Machine

/-! ### What every handler keeps

One lemma for each field of the state that a handler can touch, by the instruction that touches it. -/

section HandlerFrames

variable {i : Instr} {s t : State}

/-- No handler writes the fault latch: faults are taken before dispatch. -/
theorem exec_keeps_fault (h : exec i s = .next t) : t.fault = s.fault := by
  cases i <;> cases h <;> simp

/-- HLT halts; no other handler changes the run state. -/
theorem exec_run (h : exec i s = .next t) : t.run = if i = .hlt then .halted else s.run := by
  cases i <;> cases h <;> simp

/-- PRN appends the register's value to the output history. -/
theorem exec_prn_out {ra : RegIdx} (h : exec (.prn ra) s = .next t) : t.out = s.out ++ [s.readReg ra] := by
  cases h; simp

/-- No handler but PRN's changes the output history. -/
theorem exec_keeps_out (h : exec i s = .next t) (hi : ∀ ra, i ≠ .prn ra) : t.out = s.out := by
  cases i
  case prn ra => exact absurd rfl (hi ra)
  all_goals cases h; simp

/-- No handler but CMP's changes `fl`, and CMP's sets `EQ` alone. -/
theorem exec_fl (h : exec i s = .next t) :
    t.fl = s.fl ∨ ∃ ra rb c, i = .cmp ra rb ∧ t.fl = (s.setFlag 0 c).fl := by
  cases i
  case cmp ra rb => cases h; exact .inr ⟨ra, rb, s.readReg ra == s.readReg rb, rfl, by simp⟩
  all_goals cases h; exact .inl (by simp)

/-- The handlers keep memory canonical: only PUSH and CALL write it, one byte each. -/
theorem exec_keeps_wf (h : exec i s = .next t) (hm : Memory.wf s.mem = true) : Memory.wf t.mem = true := by
  cases i
  case push | call => cases h; simpa using State.push_wf _ hm
  all_goals cases h; simpa using hm

end HandlerFrames

/-! ### Registers: the rules of `RegsKeptBut` -/

theorem RegsKeptBut.advancePc {changed : List RegIdx} {s u : State} (h : RegsKeptBut changed s u) (flow : Flow) :
    RegsKeptBut changed s (u.advancePc flow) := fun r hr => (u.advancePc_readReg flow r).trans (h r hr)

theorem regsKeptBut_of_regs_eq {s t : State} (h : t.regs = s.regs) : RegsKeptBut [] s t :=
  fun r _ => State.readReg_congr h r

theorem writeReg_regsKeptBut (s : State) (r : RegIdx) (v : Byte) : RegsKeptBut [r] s (s.writeReg r v) :=
  fun _ hi => s.writeReg_readReg_other v fun h => hi (List.mem_singleton.mpr h.symm)

theorem push_regsKeptBut (s : State) (v : Byte) : RegsKeptBut [7] s (s.push v) :=
  writeReg_regsKeptBut s 7 (s.sp - 1)

theorem pop_regsKeptBut (s : State) : RegsKeptBut [7] s s.pop.2 := writeReg_regsKeptBut s 7 (s.sp + 1)

/-- Of a sequence of two updates, the registers either may change may change. -/
theorem RegsKeptBut.trans {l k : List RegIdx} {s t u : State} (h : RegsKeptBut l s t) (h' : RegsKeptBut k t u) :
    RegsKeptBut (l ++ k) s u := fun r hr => by
  rw [List.mem_append, not_or] at hr
  exact (h' r hr.2).trans (h r hr.1)

/-- A handler changes no register outside the write column of the table of 10_state.md R24. -/
theorem exec_regsKeptBut {i : Instr} {s t : State} (h : exec i s = .next t) : RegsKeptBut (regsWritten i) s t := by
  cases i <;> cases h <;> apply RegsKeptBut.advancePc
  case ldi | add | mul | and => exact writeReg_regsKeptBut _ _ _
  case push | call => exact push_regsKeptBut _ _
  case pop ra => exact (pop_regsKeptBut s).trans (writeReg_regsKeptBut _ _ _)
  case ret => exact pop_regsKeptBut s
  all_goals exact regsKeptBut_of_regs_eq rfl

/-! ### Registers: what an instruction depends on

Two runs of one instruction from states that differ in registers only and agree on the read column of 10_state.md R24. -/

section ReadColumn

variable {i : Instr} {s t t' : State} {v : Vector Byte 8}

/-- Outside the registers both runs leave the same. -/
theorem exec_rest_of_regsRead (h : exec i s = .next t) (h' : exec i (s.withRegs v) = .next t')
    (hread : ∀ r ∈ regsRead s.eqFlag i, (s.withRegs v).readReg r = s.readReg r) : t'.withRegs t.regs = t := by
  cases i <;> cases h <;> cases h' <;> simp only [regsRead, List.forall_mem_cons] at hread
  case jeq | jne =>
    -- the register is read only where the jump is taken, so only there do the runs have to agree on it
    cases heq : s.eqFlag <;> simp_all [State.ext_iff]
  case push | call | ret => simp [State.ext_iff, State.push_mem, State.push_readReg, State.pop_fst, hread]
  case prn | cmp | jmp => simp [State.ext_iff, hread]
  all_goals simp [State.ext_iff]

/-- In the written registers both runs leave the same. -/
theorem exec_written_of_regsRead (h : exec i s = .next t) (h' : exec i (s.withRegs v) = .next t')
    (hread : ∀ r ∈ regsRead s.eqFlag i, (s.withRegs v).readReg r = s.readReg r) :
    ∀ r ∈ regsWritten i, t'.readReg r = t.readReg r := by
  cases i <;> cases h <;> cases h' <;> simp only [regsRead, regsWritten, List.forall_mem_cons] at hread ⊢
  case ldi => simp
  case add | mul | and => simp [hread]
  case push | call | ret => simp [State.push_readReg, State.pop_snd_readReg, hread]
  case pop => simp [State.writeReg_readReg, State.pop_snd_readReg, State.pop_fst, hread]
  all_goals simp

end ReadColumn

/-- A state that differs from another in registers only is that state with other registers. -/
theorem State.eq_withRegs {s s' : State} (h : s'.withRegs s.regs = s) : s' = s.withRegs s'.regs := by
  simpa using congrArg (·.withRegs s'.regs) h

/-- Settles O33: the write column is a frame, the read column all that an instruction depends on. -/
theorem registerUseFollowsTable : Obligations.RegisterUseFollowsTable := by
  intro i s t h
  refine ⟨exec_regsKeptBut h, fun s' hs hread => ?_⟩
  rw [State.eq_withRegs hs] at hread ⊢
  obtain ⟨t', h'⟩ := exec_completes (s.withRegs s'.regs) i
  exact ⟨t', h', exec_rest_of_regsRead h h' hread, exec_written_of_regsRead h h' hread, exec_regsKeptBut h'⟩

/-! ### The flags register -/

/-- With another flags byte, which agrees on `EQ` where the instruction tests it, a handler leaves the same but for
`fl`. -/
theorem exec_withFl {i : Instr} {s t : State} (f : Byte) (h : exec i s = .next t)
    (hf : (∃ ra, i = .jeq ra ∨ i = .jne ra) → (s.withFl f).eqFlag = s.eqFlag) :
    ∃ g, exec i (s.withFl f) = .next (t.withFl g) := by
  cases i <;> cases h
  case cmp ra rb => exact ⟨setFlagByte f 0 (s.readReg ra == s.readReg rb), rfl⟩
  case jeq ra =>
    refine ⟨f, ?_⟩
    rw [exec_jeq, hf ⟨ra, .inl rfl⟩, State.withFl_advancePc, State.withFl_readReg]
  case jne ra =>
    refine ⟨f, ?_⟩
    rw [exec_jne, hf ⟨ra, .inr rfl⟩, State.withFl_advancePc, State.withFl_readReg]
  all_goals exact ⟨f, rfl⟩

/-- No step changes `fl` but one that runs CMP, which sets `EQ` alone. -/
theorem stepWith_fl {cfg : Config} {s t : State} (h : stepWith cfg s = .next t) :
    t.fl = s.fl ∨ ∃ ra rb c, s.fetch.decoded cfg = .instr (.cmp ra rb) ∧ t.fl = (s.setFlag 0 c).fl := by
  obtain ⟨-, rfl⟩ | ⟨-, -, rfl⟩ | ⟨-, -, rfl⟩ | ⟨-, i, hd, hx⟩ := stepWith_cases h
  · exact .inl rfl
  · exact .inl rfl
  · exact .inl rfl
  · obtain hfl | ⟨ra, rb, c, rfl, hfl⟩ := exec_fl hx
    · exact .inl hfl
    · exact .inr ⟨ra, rb, c, hd, hfl⟩

/-- Settles O34, by the cases of a step and of the handlers. -/
theorem onlyCmpWritesAndJumpsReadFlags : Obligations.OnlyCmpWritesAndJumpsReadFlags :=
  ⟨fun _ _ _ => stepWith_fl, fun _ _ _ f h hf => exec_withFl f h hf⟩

/-! ### The instruction register -/

/-- The length of an instruction is read off bits 7:6 of its opcode byte (30_encoding.md R82). -/
theorem instrLength_congr {b c : Byte} (h : b >>> 6 = c >>> 6) : instrLength b = instrLength c := by
  simp only [instrLength, h]

/-- The PC advance sees of `ir` only the length. -/
theorem State.advancePc_withIr {s : State} {b : Byte} (h : instrLength b = instrLength s.ir) (flow : Flow) :
    (s.advancePc flow).withIr b = (s.withIr b).advancePc flow := by
  cases flow
  case next => simp [State.ext_iff, h]
  case jump => rfl

/-- A handler sees of `ir` only the length, and keeps it. -/
theorem exec_withIr {i : Instr} {s t : State} {b : Byte} (hb : instrLength b = instrLength s.ir)
    (h : exec i s = .next t) : exec i (s.withIr b) = .next (t.withIr b) := by
  cases i <;> cases h
  all_goals
    rw [State.advancePc_withIr]
    · rfl
    · exact hb

/-- The fetch overwrites whatever `ir` held. -/
theorem stepWith_withIr (cfg : Config) {s : State} (b : Byte) (hr : s.run = .running) :
    stepWith cfg (s.withIr b) = stepWith cfg s := by
  rw [stepWith_running hr, stepWith_running (s := s.withIr b) hr]
  rfl

/-- Settles O41: the fetch overwrites `ir`, and the handlers see of it only the length. -/
theorem instructionRegisterIsUnobservable : Obligations.InstructionRegisterIsUnobservable :=
  ⟨fun cfg _ b hr => stepWith_withIr cfg b hr, fun _ _ _ _ hb h => exec_withIr (instrLength_congr hb) h⟩

/-! ### The output history and the run state -/

/-- Settles O44, by the cases of a step. -/
theorem outputGrowsByPrnOnly : Obligations.OutputGrowsByPrnOnly := by
  intro cfg s t h
  obtain ⟨hr, rfl⟩ | ⟨-, hd, rfl⟩ | ⟨-, hd, rfl⟩ | ⟨hr, i, hd, hx⟩ := stepWith_cases h
  · exact ⟨fun _ hrun => by simp [hr] at hrun, fun _ => rfl⟩
  · exact ⟨fun _ _ hp => by simp [hd] at hp, fun _ => rfl⟩
  · exact ⟨fun _ _ hp => by simp [hd] at hp, fun _ => rfl⟩
  · refine ⟨fun ra _ hp => ?_, fun hn => ?_⟩
    · obtain rfl : i = .prn ra := Decoded.instr.inj (hd.symm.trans hp)
      simpa using exec_prn_out hx
    · have hne := hn.resolve_left (by simp [hr])
      simpa using exec_keeps_out hx fun ra hi => hne ra (hi ▸ hd)

/-- Settles O49: both faults halt with their record latched, of the handlers HLT's alone halts and none latches. -/
theorem haltingHasThreeCauses : Obligations.HaltingHasThreeCauses := by
  intro cfg s t hr hf h
  obtain ⟨hh, -⟩ | ⟨-, hd, rfl⟩ | ⟨-, hd, rfl⟩ | ⟨-, i, hd, hx⟩ := stepWith_cases h
  · simp [hr] at hh
  · simp [State.endedByHlt, State.endedByFault, State.raiseIllegalOpcode, hd]
  · simp [State.endedByHlt, State.endedByFault, State.raiseIllegalOperand, hd]
  · have hrun : t.run = .halted ↔ i = .hlt := by simp [exec_run hx, hr]
    have hfault : t.fault = .none := (exec_keeps_fault hx).trans hf
    simp [State.endedByHlt, State.endedByFault, hd, hrun, hfault]

/-! ### Registers and reset -/

/-- Settles O11, by the rules of a register write. -/
theorem registerReadsBackLastWrite : Obligations.RegisterReadsBackLastWrite := by
  intro s r v w
  refine ⟨s.writeReg_readReg_same r v, writeReg_regsKeptBut s r v, ?_, fun _ => rfl, rfl, rfl, rfl, ⟨rfl, rfl⟩, rfl⟩
  simp [State.writeReg]

/-- Settles O52: the answer to a reset is the reset state, whatever the state before. -/
theorem resetPutsEveryField : Obligations.ResetPutsEveryField :=
  fun _ _ => ⟨State.reset, rfl, by decide, rfl, rfl, rfl, fun _ => rfl, rfl, rfl, rfl⟩

/-- Settles O53: nothing is listed in memory, nothing latched, and `fl` is 0. -/
theorem resetMeetsInvariant : Obligations.ResetMeetsInvariant :=
  fun _ => ⟨Memory.wf_reset, trivial, fun _ _ => BitVec.getLsbD_zero⟩

/-! ### The invariant -/

/-- A running machine that meets the invariant has latched no fault. -/
theorem State.Inv.fault_eq_none {cfg : Config} {s : State} (hi : s.Inv cfg) (hr : s.run = .running) :
    s.fault = .none := by
  have hl := hi.latch
  cases hf : s.fault <;> rw [hf] at hl
  case addressRange => exact hl.elim
  case illegalOpcode | illegalOperand =>
    obtain ⟨hhalted, -⟩ := hl
    cases hr.symm.trans hhalted

/-- The flag bits that no instruction writes stay 0 in every step. -/
theorem stepWith_keeps_reserved_flags {cfg : Config} {s t : State} (h : stepWith cfg s = .next t)
    (hf : ∀ k : Nat, k ≠ 0 → s.fl.getLsbD k = false) : ∀ k : Nat, k ≠ 0 → t.fl.getLsbD k = false := by
  intro k hk
  obtain hfl | ⟨-, -, c, -, hfl⟩ := stepWith_fl h
  · rw [hfl, hf k hk]
  · rw [hfl, State.setFlag_fl, setFlagByte_getLsbD _ _ _ _ (by decide), if_neg hk, hf k hk]

/-- Every step keeps memory canonical. -/
theorem stepWith_keeps_wf {cfg : Config} {s t : State} (h : stepWith cfg s = .next t)
    (hm : Memory.wf s.mem = true) : Memory.wf t.mem = true := by
  obtain ⟨-, rfl⟩ | ⟨-, -, rfl⟩ | ⟨-, -, rfl⟩ | ⟨-, i, -, hx⟩ := stepWith_cases h
  · exact hm
  · exact hm
  · exact hm
  · exact exec_keeps_wf hx hm

/-- Every step leaves a truthful latch: a fault's record is `pc`, `ir` and the operand bytes that the decoder refused. -/
theorem stepWith_latch {cfg : Config} {s t : State} (hi : s.Inv cfg) (h : stepWith cfg s = .next t) :
    t.fault.explains cfg t := by
  obtain ⟨-, rfl⟩ | ⟨-, hd, rfl⟩ | ⟨-, hd, rfl⟩ | ⟨hr, i, -, hx⟩ := stepWith_cases h
  · exact hi.latch
  · exact ⟨rfl, rfl, rfl, decode_illegalOpcode.mp hd⟩
  · exact ⟨rfl, rfl, rfl, hd⟩
  · rw [exec_keeps_fault hx, State.fetch_fault, hi.fault_eq_none hr]
    trivial

/-- Every step keeps the invariant, whatever the parameters. -/
theorem stepWith_keeps_inv {cfg : Config} {s t : State} (hi : s.Inv cfg) (h : stepWith cfg s = .next t) :
    t.Inv cfg where
  memory := stepWith_keeps_wf h hi.memory
  latch := stepWith_latch hi h
  flags := stepWith_keeps_reserved_flags h hi.flags

/-- Settles O54, clause by clause of the invariant. -/
theorem stepKeepsInvariant : Obligations.StepKeepsInvariant :=
  ⟨fun _ _ _ => stepWith_keeps_inv, fun _ _ => stepWith_keeps_inv⟩

end Sys2Proof.Machine

/-! # Proofs about memory (20_memory.md): what an address reads, and what a step takes from memory and puts there -/

namespace Sys2Proof

/-! ### Decoding an instruction's own bytes -/

/-- The operand bytes of every instruction, with any bytes after them, are read back as that instruction. -/
theorem instrOf_operandBytes (i : Instr) : Laws.ReadBack.Statement i := by
  cases i with
  | nop => exact Laws.ReadBack.nop
  | hlt => exact Laws.ReadBack.hlt
  | ldi ra imm => exact Laws.ReadBack.ldi ra imm
  | prn ra => exact Laws.ReadBack.prn ra
  | add ra rb => exact Laws.ReadBack.add ra rb
  | mul ra rb => exact Laws.ReadBack.mul ra rb
  | and ra rb => exact Laws.ReadBack.and ra rb
  | cmp ra rb => exact Laws.ReadBack.cmp ra rb
  | push ra => exact Laws.ReadBack.push ra
  | pop ra => exact Laws.ReadBack.pop ra
  | call ra => exact Laws.ReadBack.call ra
  | ret => exact Laws.ReadBack.ret
  | jmp ra => exact Laws.ReadBack.jmp ra
  | jeq ra => exact Laws.ReadBack.jeq ra
  | jne ra => exact Laws.ReadBack.jne ra

/-- A found mnemonic and legal operand bytes decode to their instruction. -/
theorem decode_eq_instr {cfg : Config} {op a b : Byte} {m : Mnemonic} {i : Instr}
    (hm : decodeOpcode cfg.opmap op = some m) (hi : instrOf cfg.regIdxMode m a b = some i) :
    decode cfg op a b = .instr i := by
  simp only [decode, hm, hi]

/-- The bytes of an instruction, with any bytes after them, decode to that instruction. -/
theorem decodeBytes_encodeWith_append {cfg : Config} (hadm : cfg.opmap.Admissible) (i : Instr) (rest : List Byte) :
    decodeBytes cfg (encodeWith cfg i ++ rest) = .instr i :=
  decode_eq_instr (decodeOpcode_opmap hadm.distinct i.mnemonic) (instrOf_operandBytes i cfg.regIdxMode rest)

/-- Bytes that begin with those of an instruction decode to it. -/
theorem decodeBytes_of_take_eq {cfg : Config} (hadm : cfg.opmap.Admissible) {i : Instr} {bytes : List Byte}
    (h : bytes.take (encodeWith cfg i).length = encodeWith cfg i) : decodeBytes cfg bytes = .instr i := by
  rw [← List.take_append_drop (encodeWith cfg i).length bytes, h]
  exact decodeBytes_encodeWith_append hadm i _

/-- No instruction is longer than the three bytes a step reads (30_encoding.md R80). -/
theorem encodeWith_length_le (cfg : Config) (i : Instr) : (encodeWith cfg i).length ≤ 3 := by
  cases i <;> simp [encodeWith, Instr.operandBytes]

/-- A table word that stands for an instruction is one whose three bytes decode to it. -/
theorem decode_of_decodeTableWord {nbits w : Nat} {i : Instr} (h : decodeTableWord nbits w = some i) :
    decode Config.standard (tableByte nbits w 0) (tableByte nbits w 1) (tableByte nbits w 2) = .instr i := by
  unfold decodeTableWord at h
  cases hd : decode Config.standard (tableByte nbits w 0) (tableByte nbits w 1) (tableByte nbits w 2) with
  | instr j => rw [hd] at h; exact congrArg Decoded.instr (Option.some.inj h)
  | illegalOpcode | illegalOperand => rw [hd] at h; cases h

end Sys2Proof

namespace Sys2Proof.Machine

/-! ### Writing one byte -/

/-- Settles O9, by the rules of a memory write. -/
theorem memWriteStoresOneByte : Obligations.MemWriteStoresOneByte :=
  fun s a v => ⟨s.writeMem_readMem_same a v, fun _ hb => s.writeMem_readMem_other v hb.symm, fun _ _ => rfl, rfl, rfl,
    rfl, ⟨rfl, rfl⟩, rfl⟩

/-- A byte stored in memory keeps the invariant: no clause but the canonical form looks at memory. -/
theorem State.Inv.writeMem {cfg : Config} {s : State} (hi : s.Inv cfg) (a v : Byte) : (s.writeMem a v).Inv cfg where
  memory := State.writeMem_wf a v hi.memory
  latch := hi.latch
  flags := hi.flags

/-- Settles O55: a poke is a memory write. -/
theorem pokeChangesOneByte : Obligations.PokeChangesOneByte :=
  fun _ s a v => ⟨s.writeMem a v, rfl, s.writeMem_readMem_same a v, fun _ hb => s.writeMem_readMem_other v hb.symm,
    rfl, fun hi => hi.writeMem a v⟩

/-! ### The canonical form -/

/-- At the address of its first cell a canonical memory differs from one that lists nothing up to there. -/
theorem Memory.read_head_ne {low k : Nat} {w : Byte} {m m' : Memory} (h : Memory.wfFrom low ((k, w) :: m) = true)
    (h' : Memory.wfFrom (k + 1) m' = true) : Memory.read ((k, w) :: m) k ≠ Memory.read m' k := by
  obtain ⟨-, -, hw, -⟩ := Memory.wfFrom_cons.mp h
  rwa [Memory.read_cons, if_pos rfl, Memory.read_below h' (Nat.lt_succ_self k)]

/-- Of two canonical memories that read the same, neither begins at a lower address than the other. -/
theorem Memory.head_le_of_read_eq {low k k' : Nat} {w w' : Byte} {m m' : Memory}
    (h : Memory.wfFrom low ((k, w) :: m) = true) (h' : Memory.wfFrom low ((k', w') :: m') = true)
    (heq : ∀ a < Config.memSize, Memory.read ((k, w) :: m) a = Memory.read ((k', w') :: m') a) : k' ≤ k := by
  by_contra hlt
  obtain ⟨-, hk, -⟩ := Memory.wfFrom_cons.mp h
  obtain ⟨-, hrest⟩ := Memory.wfFrom_cons.mp h'
  exact Memory.read_head_ne h (Memory.wfFrom_cons.mpr ⟨by omega, hrest⟩) (heq k hk)

/-- Two memories that read the same behind a first cell at one address read the same without it. -/
theorem Memory.read_tail_eq {k : Nat} {w w' : Byte} {m m' : Memory} (h : Memory.wfFrom (k + 1) m = true)
    (h' : Memory.wfFrom (k + 1) m' = true) {a : Nat}
    (heq : Memory.read ((k, w) :: m) a = Memory.read ((k, w') :: m') a) : Memory.read m a = Memory.read m' a := by
  by_cases ha : k = a
  · rw [Memory.read_below h (by omega), Memory.read_below h' (by omega)]
  · simpa only [Memory.read_cons, if_neg ha] using heq

/-- Canonical memories that read the same at every address are equal. -/
theorem Memory.eq_of_read_eq {m m' : Memory} {low : Nat} (h : Memory.wfFrom low m = true)
    (h' : Memory.wfFrom low m' = true) (heq : ∀ a < Config.memSize, Memory.read m a = Memory.read m' a) : m = m' := by
  induction m generalizing m' low with
  | nil =>
    cases m' with
    | nil => rfl
    | cons cell' rest' =>
      obtain ⟨-, hk, -⟩ := Memory.wfFrom_cons.mp h'
      exact absurd (heq _ hk).symm (Memory.read_head_ne h' rfl)
  | cons cell rest ih =>
    obtain ⟨k, w⟩ := cell
    obtain ⟨-, hk, -, hrest⟩ := Memory.wfFrom_cons.mp h
    cases m' with
    | nil => exact absurd (heq k hk) (Memory.read_head_ne h rfl)
    | cons cell' rest' =>
      obtain ⟨k', w'⟩ := cell'
      obtain ⟨-, -, -, hrest'⟩ := Memory.wfFrom_cons.mp h'
      obtain rfl : k = k' := le_antisymm (Memory.head_le_of_read_eq h' h fun a ha => (heq a ha).symm)
        (Memory.head_le_of_read_eq h h' heq)
      have hw : w = w' := by simpa only [Memory.read_cons, if_pos] using heq k hk
      rw [hw, ih hrest hrest' fun a ha => Memory.read_tail_eq hrest hrest' (heq a ha)]

/-- Settles O10: the addresses of the canonical form are the 256 that a byte can name. -/
theorem canonicalMemoryIsItsBytes : Obligations.CanonicalMemoryIsItsBytes := by
  intro m m' h h' heq
  refine Memory.eq_of_read_eq h h' fun a ha => ?_
  have hnat : (BitVec.ofNat 8 a).toNat = a := (BitVec.toNat_ofNat a 8).trans (Nat.mod_eq_of_lt ha)
  rw [← hnat]
  exact heq (BitVec.ofNat 8 a)

/-! ### What a step fetches -/

/-- A running machine executes what the bytes at the program counter decode to. -/
theorem stepWith_of_decoded {cfg : Config} {s : State} {i : Instr} (hr : s.run = .running)
    (hd : s.fetch.decoded cfg = .instr i) : stepWith cfg s = exec i s.fetch := by
  rw [stepWith_running hr, runFetched, hd]

/-- The three bytes a step with a legal opcode reads, at ascending addresses (20_memory.md R56). -/
def State.fetchedBytes (s : State) : List Byte := [s.readMem s.pc, s.readMem (s.pc + 1), s.readMem (s.pc + 2)]

theorem State.fetch_decoded_eq_decodeBytes (cfg : Config) (s : State) :
    s.fetch.decoded cfg = decodeBytes cfg s.fetchedBytes := rfl

theorem State.fetchedBytes_getElem (s : State) (k : Nat) (hk : k < s.fetchedBytes.length) :
    s.fetchedBytes[k] = s.readMem (s.pc + BitVec.ofNat 8 k) := by
  match k, hk with
  | 0, _ => simp [State.fetchedBytes]
  | 1, _ => rfl
  | 2, _ => rfl

/-- An instruction whose bytes memory holds from the program counter on is what the step reads first. -/
theorem State.fetchedBytes_take_eq_encodeWith {cfg : Config} {i : Instr} {s : State}
    (h : ∀ k < (encodeWith cfg i).length,
      s.readMem (s.pc + BitVec.ofNat 8 k) = (encodeWith cfg i).getD k 0) :
    s.fetchedBytes.take (encodeWith cfg i).length = encodeWith cfg i := by
  refine List.ext_getElem (List.length_take_of_le (encodeWith_length_le cfg i)) fun k _ hk => ?_
  rw [List.getElem_take, State.fetchedBytes_getElem, h k hk, List.getD_eq_getElem _ _ hk]

/-- Settles O36: what the step reads begins with the bytes of the instruction, so it decodes them. -/
theorem stepRunsEncodedInstruction : Obligations.StepRunsEncodedInstruction := by
  intro cfg i s hadm hr hmem
  have hop : s.readMem s.pc = cfg.opmap i.mnemonic := by
    simpa [encodeWith] using hmem 0 (Nat.succ_pos _)
  rw [← hop]
  exact stepWith_of_decoded hr (decodeBytes_of_take_eq hadm (State.fetchedBytes_take_eq_encodeWith hmem))

/-- The step reads the three bytes of a placed table word back, though their addresses may wrap. -/
theorem State.withFetchWord_fetchedBytes (s : State) (nbits w : Nat) :
    (s.withFetchWord nbits w).fetchedBytes = [tableByte nbits w 0, tableByte nbits w 1, tableByte nbits w 2] := by
  simp [State.fetchedBytes, State.withFetchWord, State.writeMem_readMem]

/-- Settles O37: the bytes of the placed word are what the step reads and decodes. -/
theorem fetchWordIsRunNext : Obligations.FetchWordIsRunNext := by
  intro s nbits w i h
  have hbytes := s.withFetchWord_fetchedBytes nbits w
  have hd : (s.withFetchWord nbits w).fetch.decoded Config.standard = .instr i := by
    rw [State.fetch_decoded_eq_decodeBytes, hbytes]
    exact decode_of_decodeTableWord h
  have hop : (s.withFetchWord nbits w).readMem (s.withFetchWord nbits w).pc = tableByte nbits w 0 :=
    (List.cons.inj hbytes).1
  rw [← hop]
  exact stepWith_of_decoded rfl hd

/-! ### The transactions of a handler -/

section HandlerAccesses

variable {i : Instr} {s t : State}

/-- A handler changes no byte that its transactions do not write. -/
theorem exec_keeps_unwritten (h : exec i s = .next t) {a : Byte} (ha : ∀ v, .write a v ∉ dataAccesses i s) :
    t.readMem a = s.readMem a := by
  cases i
  case push | call =>
    cases h
    simp only [dataAccesses, List.mem_singleton, Access.write.injEq, not_and', forall_eq, State.sp_eq] at ha
    rw [State.advancePc_readMem, State.push_readMem, if_neg (Ne.symm ha)]
  all_goals cases h; simp

/-- A handler leaves at an address that its transactions write the byte that they write. -/
theorem exec_writes (h : exec i s = .next t) {a v : Byte} (ha : .write a v ∈ dataAccesses i s) : t.readMem a = v := by
  cases i <;> simp only [dataAccesses, List.mem_singleton, List.not_mem_nil, reduceCtorEq] at ha
  case push | call =>
    cases ha; cases h
    rw [State.advancePc_readMem, State.push_readMem, State.sp_eq, if_pos rfl]

/-- The transactions of a handler are addressed by registers and the program counter alone. -/
theorem dataAccesses_congr (i : Instr) {s s' : State} (hregs : s'.regs = s.regs) (hpc : s'.pc = s.pc) :
    dataAccesses i s' = dataAccesses i s := by
  cases i <;> simp only [dataAccesses, State.sp, State.readReg_congr hregs, hpc]

/-- The memory agrees with that of the state on every byte that the transactions read. -/
def AgreesOnReads (accesses : List Access) (s : State) (m : Memory) : Prop :=
  ∀ a : Byte, .read a ∈ accesses → (s.withMem m).readMem a = s.readMem a

/-- With another memory, which agrees on the bytes its transactions read, a handler leaves the same but for memory. -/
theorem exec_withMem {m : Memory} (h : exec i s = .next t) (hm : AgreesOnReads (dataAccesses i s) s m) :
    ∃ t', exec i (s.withMem m) = .next t' ∧ t'.withMem t.mem = t := by
  obtain ⟨t', h'⟩ := exec_completes (s.withMem m) i
  refine ⟨t', h', ?_⟩
  cases i <;> cases h <;> cases h'
  case pop | ret =>
    have hpop : (s.withMem m).pop.1 = s.pop.1 := hm s.sp (List.mem_singleton_self _)
    rw [hpop, ← State.withMem_advancePc]
    rfl
  case jeq | jne => cases hf : s.eqFlag <;> simp [State.ext_iff, hf]
  all_goals rw [← State.withMem_advancePc]; rfl

end HandlerAccesses

/-! ### The transactions of a step -/

section StepAccesses

variable {cfg : Config} {s t : State} {m : Memory}

theorem accessesWith_halted (hr : s.run = .halted) : accessesWith cfg s = [] := by
  simp only [accessesWith, hr]

theorem accessesWith_illegalOpcode (hr : s.run = .running) (hd : s.fetch.decoded cfg = .illegalOpcode) :
    accessesWith cfg s = [.read s.pc] := by
  simp only [accessesWith, hr, hd]

theorem accessesWith_illegalOperand (hr : s.run = .running) (hd : s.fetch.decoded cfg = .illegalOperand) :
    accessesWith cfg s = [.read s.pc, .read (s.pc + 1), .read (s.pc + 2)] := by
  simp only [accessesWith, hr, hd]

theorem accessesWith_instr {i : Instr} (hr : s.run = .running) (hd : s.fetch.decoded cfg = .instr i) :
    accessesWith cfg s = [.read s.pc, .read (s.pc + 1), .read (s.pc + 2)] ++ dataAccesses i s.fetch := by
  simp only [accessesWith, hr, hd, dataAccesses_congr i s.fetch_regs s.fetch_pc]

/-- The writes of a step that runs an instruction are its handler's. -/
theorem write_mem_accessesWith_instr {i : Instr} (hr : s.run = .running) (hd : s.fetch.decoded cfg = .instr i)
    {a v : Byte} : .write a v ∈ accessesWith cfg s ↔ .write a v ∈ dataAccesses i s.fetch := by
  simp [accessesWith_instr hr hd]

/-- A step changes no byte that its transactions do not write. -/
theorem stepWith_keeps_unwritten (h : stepWith cfg s = .next t) {a : Byte}
    (ha : ∀ v, .write a v ∉ accessesWith cfg s) : t.readMem a = s.readMem a := by
  obtain ⟨-, rfl⟩ | ⟨-, -, rfl⟩ | ⟨-, -, rfl⟩ | ⟨hr, i, hd, hx⟩ := stepWith_cases h
  · rfl
  · rfl
  · rfl
  · exact exec_keeps_unwritten hx fun v hv => ha v ((write_mem_accessesWith_instr hr hd).mpr hv)

/-- A step leaves at an address that its transactions write the byte that they write. -/
theorem stepWith_writes (h : stepWith cfg s = .next t) {a v : Byte} (ha : .write a v ∈ accessesWith cfg s) :
    t.readMem a = v := by
  obtain ⟨hr, -⟩ | ⟨hr, hd, -⟩ | ⟨hr, hd, -⟩ | ⟨hr, i, hd, hx⟩ := stepWith_cases h
  · simp [accessesWith_halted hr] at ha
  · simp [accessesWith_illegalOpcode hr hd] at ha
  · simp [accessesWith_illegalOperand hr hd] at ha
  · exact exec_writes hx ((write_mem_accessesWith_instr hr hd).mp ha)

/-- Every running step reads its opcode byte. -/
theorem read_pc_mem_accessesWith (cfg : Config) (hr : s.run = .running) : .read s.pc ∈ accessesWith cfg s := by
  cases hd : s.fetch.decoded cfg with
  | illegalOpcode => simp [accessesWith_illegalOpcode hr hd]
  | illegalOperand => simp [accessesWith_illegalOperand hr hd]
  | instr i => simp [accessesWith_instr hr hd]

/-- Every running step with a legal opcode reads its operand bytes. -/
theorem reads_operands_accessesWith (hr : s.run = .running) (hd : s.fetch.decoded cfg ≠ .illegalOpcode) :
    .read (s.pc + 1) ∈ accessesWith cfg s ∧ .read (s.pc + 2) ∈ accessesWith cfg s := by
  cases hd' : s.fetch.decoded cfg with
  | illegalOpcode => exact absurd hd' hd
  | illegalOperand => simp [accessesWith_illegalOperand hr hd']
  | instr i => simp [accessesWith_instr hr hd']

/-- The transactions of a running step's handler are among the step's. -/
theorem mem_accessesWith_of_dataAccesses {i : Instr} (hr : s.run = .running) (hd : s.fetch.decoded cfg = .instr i)
    {x : Access} (hx : x ∈ dataAccesses i s.fetch) : x ∈ accessesWith cfg s := by
  rw [accessesWith_instr hr hd]
  exact List.mem_append_right _ hx

section Agreement

variable (hr : s.run = .running) (hm : AgreesOnReads (accessesWith cfg s) s m)
include hr hm

/-- From an agreeing memory the same opcode is fetched. -/
theorem fetch_withMem : (s.withMem m).fetch = s.fetch.withMem m := by
  simp [State.ext_iff, hm s.pc (read_pc_mem_accessesWith cfg hr)]

/-- From an agreeing memory the same operand bytes are fetched, where the opcode is legal. -/
theorem operands_withMem (hd : s.fetch.decoded cfg ≠ .illegalOpcode) :
    (s.withMem m).readMem (s.pc + 1) = s.readMem (s.pc + 1) ∧
      (s.withMem m).readMem (s.pc + 2) = s.readMem (s.pc + 2) :=
  ⟨hm _ (reads_operands_accessesWith hr hd).1, hm _ (reads_operands_accessesWith hr hd).2⟩

/-- From an agreeing memory the same is decoded; an illegal opcode is so whatever bytes come after it. -/
theorem decoded_withMem : (s.withMem m).fetch.decoded cfg = s.fetch.decoded cfg := by
  have hop : (s.withMem m).readMem s.pc = s.readMem s.pc := hm s.pc (read_pc_mem_accessesWith cfg hr)
  by_cases hd : s.fetch.decoded cfg = .illegalOpcode
  · rw [hd, fetch_decoded, State.withMem_pc, hop]
    exact decode_illegalOpcode.mpr (decode_illegalOpcode.mp hd)
  · obtain ⟨ha, hb⟩ := operands_withMem hr hm hd
    rw [fetch_decoded, fetch_decoded, State.withMem_pc, hop, ha, hb]

end Agreement

/-- With a memory that agrees on the bytes the transactions read, the transactions are the same. -/
theorem accessesWith_withMem (hm : AgreesOnReads (accessesWith cfg s) s m) :
    accessesWith cfg (s.withMem m) = accessesWith cfg s := by
  cases hr : s.run with
  | halted => rw [accessesWith_halted hr, accessesWith_halted (s := s.withMem m) hr]
  | running =>
    have hdm := decoded_withMem hr hm
    cases hd : s.fetch.decoded cfg with
    | illegalOpcode =>
      rw [accessesWith_illegalOpcode hr hd, accessesWith_illegalOpcode (s := s.withMem m) hr (hdm.trans hd)]
      rfl
    | illegalOperand =>
      rw [accessesWith_illegalOperand hr hd, accessesWith_illegalOperand (s := s.withMem m) hr (hdm.trans hd)]
      rfl
    | instr i =>
      rw [accessesWith_instr hr hd, accessesWith_instr (s := s.withMem m) hr (hdm.trans hd),
        dataAccesses_congr i (s := s.fetch) (s' := (s.withMem m).fetch) rfl rfl]
      rfl

/-- The record of an illegal operand sees of memory only the operand bytes. -/
theorem raiseIllegalOperand_withMem (ha : (s.withMem m).operandA = s.operandA)
    (hb : (s.withMem m).operandB = s.operandB) :
    (s.withMem m).raiseIllegalOperand = s.raiseIllegalOperand.withMem m := by
  rw [State.raiseIllegalOperand, ha, hb]
  rfl

/-- With a memory that agrees on the bytes the transactions read, the step leaves the same but for memory. -/
theorem stepWith_withMem (h : stepWith cfg s = .next t) (hm : AgreesOnReads (accessesWith cfg s) s m) :
    ∃ t', stepWith cfg (s.withMem m) = .next t' ∧ t'.withMem t.mem = t := by
  obtain ⟨hr, rfl⟩ | ⟨hr, hd, rfl⟩ | ⟨hr, hd, rfl⟩ | ⟨hr, i, hd, hx⟩ := stepWith_cases h
  · exact ⟨_, stepWith_halted (s := t.withMem m) hr, rfl⟩
  · refine ⟨(s.fetch.withMem m).raiseIllegalOpcode, ?_, rfl⟩
    rw [stepWith_running (s := s.withMem m) hr, runFetched, decoded_withMem hr hm, hd, fetch_withMem hr hm]
  · obtain ⟨ha, hb⟩ := operands_withMem hr hm (by simp [hd])
    refine ⟨(s.fetch.withMem m).raiseIllegalOperand, ?_, ?_⟩
    · rw [stepWith_running (s := s.withMem m) hr, runFetched, decoded_withMem hr hm, hd, fetch_withMem hr hm]
    · rw [raiseIllegalOperand_withMem (s := s.fetch) ha hb]
      rfl
  · rw [stepWith_of_decoded (s := s.withMem m) hr ((decoded_withMem hr hm).trans hd), fetch_withMem hr hm]
    exact exec_withMem hx fun a ha => hm a (mem_accessesWith_of_dataAccesses hr hd ha)

end StepAccesses

/-- Settles O43: writes, the frame of the writes, and the dependence on the reads, each by the cases of a step. -/
theorem stepTouchesOnlyItsAccesses : Obligations.StepTouchesOnlyItsAccesses :=
  fun _ _ _ h => ⟨fun _ => stepWith_keeps_unwritten h, fun _ _ => stepWith_writes h,
    fun _ hm => ⟨accessesWith_withMem hm, stepWith_withMem h hm⟩⟩

end Sys2Proof.Machine

/-! # Proofs about the encoding (30_encoding.md): the opcode lookup, the register bytes, the round trip, the length -/

namespace Sys2Proof

/-! ### The opcode lookup -/

/-- With distinct bytes the lookup answers exactly the mnemonic that has the byte. -/
theorem decodeOpcode_eq_some_iff {om : OpMap} (hd : ∀ m n, om m = om n → m = n) {op : Byte} {m : Mnemonic} :
    decodeOpcode om op = some m ↔ om m = op := by
  refine ⟨opmap_of_decodeOpcode, ?_⟩
  rintro rfl
  exact decodeOpcode_opmap hd m

/-- Some mnemonic is found exactly when one has the byte. -/
theorem decodeOpcode_ne_none_iff {om : OpMap} {op : Byte} : decodeOpcode om op ≠ none ↔ ∃ m, om m = op := by
  rw [ne_eq, decodeOpcode_none, not_forall_not]

/-- Settles O3: what is found has the byte, and distinct bytes are found. -/
theorem decodeLooksUpWholeByte : Obligations.DecodeLooksUpWholeByte :=
  fun _ hadm _ => ⟨fun _ => decodeOpcode_eq_some_iff hadm.distinct, decodeOpcode_none⟩

/-- Settles O4: bits 7:6 of a legal opcode are its operand count, which is at most 2. -/
theorem operandCountThreeIsIllegal : Obligations.OperandCountThreeIsIllegal := by
  intro cfg op a b hadm hop
  refine decode_illegalOpcode.mpr (decodeOpcode_none.mpr fun m hm => ?_)
  have hcount : m.format.operandCount = 3 := by rw [← hadm.countAgrees m, hm, hop]; rfl
  have hle := m.operandCount_le
  omega

/-- A byte is one of the default map's exactly when a list that permutes the map's table has it. -/
theorem opmap_standard_iff_mem {op : Byte} {bytes : List Byte}
    (h : (Mnemonic.all.map OpMap.standard).Perm bytes) : (∃ m, OpMap.standard m = op) ↔ op ∈ bytes := by
  simp [← h.mem_iff, Mnemonic.mem_all]

/-- Settles O1: the check of the default map succeeds, and the fifteen bytes are its table, sorted. -/
theorem standardMapIsAdmissible : Obligations.StandardMapIsAdmissible :=
  ⟨(OpMap.admissible_iff _).mp (by decide),
    fun _ => decodeOpcode_ne_none_iff.trans (opmap_standard_iff_mem (by decide))⟩

/-! ### Register bytes -/

@[simp] theorem regByte_toNat (r : RegIdx) : (regByte r).toNat = r.val := by revert r; decide

/-- With the default mode a byte is read as an index exactly when it is the byte of that index. -/
theorem regOperand_fault_eq_some_iff {b : Byte} {r : RegIdx} : regOperand .fault b = some r ↔ b = regByte r := by
  refine ⟨regOperand_fault, ?_⟩
  rintro rfl
  exact regOperand_regByte .fault r

/-- Settles O5, by the laws of both modes. -/
theorem registerByteIsChecked : Obligations.RegisterByteIsChecked := by
  intro b
  refine ⟨fun r => ?_, regOperand_fault_none b, regIndex b, regOperand_mask3 b, rfl⟩
  rw [regOperand_fault_eq_some_iff, ← BitVec.toNat_inj, regByte_toNat]

/-- With the masking mode every operand byte gives an instruction with one register operand. -/
theorem withReg_mask3 (a : Byte) (f : RegIdx → Instr) : withReg .mask3 a f = some (f (regIndex a)) := by
  simp only [withReg, regOperand_mask3, Option.map_some]

/-- With the masking mode all operand bytes give an instruction with two register operands. -/
theorem withRegs_mask3 (a b : Byte) (f : RegIdx → RegIdx → Instr) :
    withRegs .mask3 a b f = some (f (regIndex a) (regIndex b)) := by
  simp only [withRegs, regOperand_mask3]

/-- With the masking mode no operand bytes are refused. -/
theorem instrOf_mask3 (m : Mnemonic) (a b : Byte) : ∃ i, instrOf .mask3 m a b = some i := by
  cases m
  case nop | hlt | ret => exact ⟨_, rfl⟩
  case add | mul | and | cmp => exact ⟨_, withRegs_mask3 a b _⟩
  all_goals exact ⟨_, withReg_mask3 a _⟩

/-- Settles O48: with the masking mode the operand bytes of a legal opcode always give an instruction. -/
theorem maskModeNeverRefusesOperands : Obligations.MaskModeNeverRefusesOperands := by
  intro cfg op a b hmode
  refine ⟨fun h => ?_, fun hop => ?_⟩
  · obtain ⟨m, -, hnone⟩ := decode_illegalOperand.mp h
    obtain ⟨i, hi⟩ := instrOf_mask3 m a b
    rw [hmode, hi] at hnone
    cases hnone
  · obtain ⟨m, hm⟩ := Option.ne_none_iff_exists'.mp (decodeOpcode_ne_none_iff.mpr hop)
    obtain ⟨i, hi⟩ := instrOf_mask3 m a b
    exact ⟨i, decode_eq_instr hm (hmode ▸ hi)⟩

/-! ### The round trip -/

/-- Settles O6: the opcode byte is found as its mnemonic, and the operand bytes are read back. -/
theorem decodeOfEncodeIsInstr : Obligations.DecodeOfEncodeIsInstr :=
  fun _ i rest hadm => decodeBytes_encodeWith_append hadm i rest

/-- With the default mode the byte of a register operand is the byte of its index. -/
theorem eq_regByte_of_withReg {a : Byte} {f : RegIdx → Instr} {i : Instr} (h : withReg .fault a f = some i) :
    ∃ r, a = regByte r ∧ i = f r := by
  obtain ⟨r, hr, rfl⟩ := Option.map_eq_some_iff.mp h
  exact ⟨r, regOperand_fault hr, rfl⟩

/-- With the default mode the bytes of two register operands are the bytes of their indexes. -/
theorem eq_regByte_of_withRegs {a b : Byte} {f : RegIdx → RegIdx → Instr} {i : Instr}
    (h : withRegs .fault a b f = some i) : ∃ r q, a = regByte r ∧ b = regByte q ∧ i = f r q := by
  unfold withRegs at h
  split at h
  · next r q hr hq => cases h; exact ⟨r, q, regOperand_fault hr, regOperand_fault hq, rfl⟩
  · cases h

/-- With the default mode the operand bytes of an instruction read are those it was read from, as many as its format
says. -/
theorem operandBytes_of_instrOf {m : Mnemonic} {a b : Byte} {i : Instr} (h : instrOf .fault m a b = some i) :
    i.operandBytes = [a, b].take m.format.operandCount := by
  cases m
  case nop | hlt | ret => cases h; rfl
  case add | mul | and | cmp => obtain ⟨r, q, rfl, rfl, rfl⟩ := eq_regByte_of_withRegs h; rfl
  all_goals obtain ⟨r, rfl, rfl⟩ := eq_regByte_of_withReg h; rfl

/-- Settles O7: the lookup gives the opcode byte back, the operand check the operand bytes. -/
theorem encodeOfDecodeIsBytes : Obligations.EncodeOfDecodeIsBytes := by
  intro cfg op a b i hmode h
  obtain ⟨m, hm, hi⟩ := decode_instr h
  rw [hmode] at hi
  rw [encodeWith, mnemonic_of_instrOf hi, opmap_of_decodeOpcode hm, operandBytes_of_instrOf hi, List.take_succ_cons]

/-- Settles O2, by running the decoder on each word. -/
theorem specWordsDecode : Obligations.SpecWordsDecode := by
  refine ⟨?_, ?_, ?_, ?_, ?_, ?_, ?_⟩ <;> decide

/-! ### The length -/

/-- Every instruction has as many operand bytes as its format says. -/
theorem operandBytes_length (i : Instr) : i.operandBytes.length = i.mnemonic.format.operandCount := by
  cases i with
  | nop => exact Laws.OperandBytes.nop
  | hlt => exact Laws.OperandBytes.hlt
  | ldi ra imm => exact Laws.OperandBytes.ldi ra imm
  | prn ra => exact Laws.OperandBytes.prn ra
  | add ra rb => exact Laws.OperandBytes.add ra rb
  | mul ra rb => exact Laws.OperandBytes.mul ra rb
  | and ra rb => exact Laws.OperandBytes.and ra rb
  | cmp ra rb => exact Laws.OperandBytes.cmp ra rb
  | push ra => exact Laws.OperandBytes.push ra
  | pop ra => exact Laws.OperandBytes.pop ra
  | call ra => exact Laws.OperandBytes.call ra
  | ret => exact Laws.OperandBytes.ret
  | jmp ra => exact Laws.OperandBytes.jmp ra
  | jeq ra => exact Laws.OperandBytes.jeq ra
  | jne ra => exact Laws.OperandBytes.jne ra

/-- Masking bits 7:6 of a byte, moved down, to two bits changes nothing. -/
theorem shiftRight_six_and_three (op : Byte) : (op.toNat >>> 6) &&& 3 = (op >>> 6).toNat := by
  have hlt : op.toNat >>> 6 < 2 ^ 2 := by
    rw [Nat.shiftRight_eq_div_pow]
    exact Nat.div_lt_of_lt_mul op.isLt
  rw [BitVec.toNat_ushiftRight]
  exact (Nat.and_two_pow_sub_one_eq_mod _ 2).trans (Nat.mod_eq_of_lt hlt)

/-- Settles O8: bits 7:6 of the opcode byte are the operand count, by which the instruction is longer than one byte. -/
theorem lengthIsReadOffOpcode : Obligations.LengthIsReadOffOpcode := by
  refine ⟨fun op => ?_, fun cfg i hadm => ?_⟩
  · rw [instrLength_toNat, shiftRight_six_and_three]
  · rw [instrLength_toNat, hadm.countAgrees, encodeWith, List.length_cons, operandBytes_length]

end Sys2Proof

namespace Sys2Proof.Machine

/-! ### The meaning under another map -/

/-- Settles O42: a handler sees of `ir` only the length, which is the same under both maps. -/
theorem meaningIsIndependentOfMap : Obligations.MeaningIsIndependentOfMap := by
  intro om om' i s t hadm hadm' h
  have hlen : instrLength (om' i.mnemonic) = instrLength (om i.mnemonic) := by
    rw [instrLength_of_admissible hadm', instrLength_of_admissible hadm]
  exact exec_withIr (s := s.withIr (om i.mnemonic)) hlen h

end Sys2Proof.Machine

/-! # Proofs about the instruction cycle (40_instruction_cycle.md): the primitives of the handlers, and one step -/

namespace Sys2Proof.Machine

/-! ### Every step has a next state -/

/-- Whatever the bytes decode to, there is a next state: both faults are taken as one, and every handler completes. -/
theorem stepWith_completes (cfg : Config) (s : State) : ∃ t, stepWith cfg s = .next t := by
  cases hr : s.run with
  | halted => exact ⟨s, stepWith_halted hr⟩
  | running =>
    rw [stepWith_running hr, runFetched]
    cases s.fetch.decoded cfg with
    | illegalOpcode => exact ⟨_, rfl⟩
    | illegalOperand => exact ⟨_, rfl⟩
    | instr i => exact exec_completes s.fetch i

/-- Settles O38: a halted step, both faults and every handler answer a next state. -/
theorem everyStepHasNextState : Obligations.EveryStepHasNextState := stepWith_completes

/-- Settles O35: the fetched state is the state with the opcode byte in `ir`, and `step` is one case of `stepWith`. -/
theorem stepRunsDecodedInstruction : Obligations.StepRunsDecodedInstruction :=
  ⟨fun _ _ _ => stepWith_of_decoded, fun _ _ => stepWith_of_decoded⟩

/-! ### The instruction register after a step -/

/-- No handler writes the instruction register. -/
theorem exec_keeps_ir {i : Instr} {s t : State} (h : exec i s = .next t) : t.ir = s.ir := by
  cases i <;> cases h <;> simp

/-- Settles O39: neither a fault nor a handler writes `ir` after the fetch. -/
theorem fetchWritesInstructionRegister : Obligations.FetchWritesInstructionRegister := by
  refine ⟨fun _ => rfl, fun cfg s t hr h => ?_⟩
  obtain ⟨hh, -⟩ | ⟨-, -, rfl⟩ | ⟨-, -, rfl⟩ | ⟨-, i, -, hx⟩ := stepWith_cases h
  · cases hr.symm.trans hh
  · rfl
  · rfl
  · exact exec_keeps_ir hx

/-! ### The PC advance -/

/-- A handler that is no control transfer falls through. -/
theorem exec_pc_of_not_transfers {i : Instr} {s t : State} (hi : ¬ Transfers i) (h : exec i s = .next t) :
    t.pc = s.pc + instrLength s.ir := by
  cases i
  case call | ret | jmp | jeq | jne => exact absurd trivial hi
  all_goals cases h; simp

/-- The opcode byte that an instruction was decoded from is the one of its mnemonic. -/
theorem opmap_mnemonic_of_decoded {cfg : Config} {s : State} {i : Instr} (hd : s.decoded cfg = .instr i) :
    cfg.opmap i.mnemonic = s.ir := by
  obtain ⟨m, hm, hi⟩ := decode_instr hd
  rw [mnemonic_of_instrOf hi, opmap_of_decodeOpcode hm]

/-- Settles O40: the length that a handler falls through by is read off the mnemonic's own opcode byte. -/
theorem fallThroughAdvancesByLength : Obligations.FallThroughAdvancesByLength := by
  intro cfg s t i hadm hr hd hi h
  rw [stepWith_of_decoded hr hd] at h
  rw [exec_pc_of_not_transfers hi h, ← opmap_mnemonic_of_decoded hd, instrLength_of_admissible hadm, State.fetch_pc,
    BitVec.toNat_add, BitVec.toNat_ofNat, Nat.add_mod_mod, Nat.add_assoc]

/-! ### The ALU and the flag update -/

/-- Settles O13: byte arithmetic is modulo 256, and equal bytes are equal numbers. -/
theorem aluComputesModulo256 : Obligations.AluComputesModulo256 := by
  intro a b
  refine ⟨⟨a + b, rfl, BitVec.toNat_add a b⟩, ⟨a * b, rfl, BitVec.toNat_mul a b⟩,
    ⟨a &&& b, rfl, fun _ => BitVec.getLsbD_and⟩, a == b, rfl, ?_⟩
  rw [beq_iff_eq, BitVec.toNat_inj]

/-- Settles O12, by the law of the flags byte and the cases of a step. -/
theorem setFlagChangesOneBit : Obligations.SetFlagChangesOneBit := by
  refine ⟨fun s bit cond hbit => ⟨fun k => setFlagByte_getLsbD s.fl bit cond k hbit, rfl⟩, fun cfg s t h => ?_⟩
  obtain hfl | ⟨-, -, c, -, hfl⟩ := stepWith_fl h
  · exact .inl hfl
  · exact .inr ⟨c, hfl⟩

/-! ### The stack primitives -/

/-- The stack pointer after a push. -/
@[simp] theorem State.push_readReg_sp (s : State) (v : Byte) : (s.push v).readReg 7 = s.readReg 7 - 1 := by
  rw [State.push_readReg, if_pos rfl]

/-- The stack pointer after a pop. -/
@[simp] theorem State.pop_snd_readReg_sp (s : State) : s.pop.2.readReg 7 = s.readReg 7 + 1 := by
  rw [State.pop_snd_readReg, if_pos rfl]

/-- The decrement of a byte as a number: 0 wraps to 255. -/
theorem toNat_sub_one_wraps (b : Byte) : (b - 1).toNat = b.toNat - 1 + (if b = 0 then 255 else 0) := by
  split
  · next hb => subst hb; rfl
  · next hb => bv_omega

/-- Settles O14, by the rules of a push. -/
theorem pushStoresBelowStackPointer : Obligations.PushStoresBelowStackPointer := by
  intro s v
  rw [State.push_readReg_sp]
  refine ⟨toNat_sub_one_wraps _, ?_, push_regsKeptBut s v, fun a ha => ?_, rfl, rfl, rfl, ⟨rfl, rfl⟩, rfl⟩
  · rw [State.push_readMem, if_pos rfl]
  · rw [State.push_readMem, if_neg ha.symm]

/-- Settles O15, by the rules of a pop. -/
theorem popReadsAtStackPointer : Obligations.PopReadsAtStackPointer := by
  intro s
  refine ⟨s.pop_fst, ?_, pop_regsKeptBut s, s.pop_snd_readMem, rfl, rfl, rfl, ⟨rfl, rfl⟩, rfl⟩
  rw [State.pop_snd_readReg_sp]
  exact BitVec.toNat_add _ 1

/-! ### The halted machine -/

/-- The byte that an event pokes, with its address. -/
def PortEvent.poked : PortEvent → Option (Byte × Byte)
  | .reset => none
  | .poke addr v => some (addr, v)
  | .step => none

/-- Poking an image changes memory only. -/
theorem State.pokeAll_withMem (s : State) (image : List (Byte × Byte)) : (s.pokeAll image).withMem s.mem = s := by
  induction image generalizing s with
  | nil => rfl
  | cons cell later ih =>
    obtain ⟨a, v⟩ := cell
    exact congrArg (·.withMem s.mem) (ih (s.poke a v))

/-- Of any events but a reset, a halted machine takes the pokes, in order, and nothing else. -/
theorem respondAll_halted (cfg : Config) {events : List PortEvent} {s : State} (hr : s.run = .halted)
    (he : .reset ∉ events) : respondAll cfg events s = .next (s.pokeAll (events.filterMap PortEvent.poked)) := by
  induction events generalizing s with
  | nil => rfl
  | cons e later ih =>
    obtain ⟨hne, hlater⟩ := List.ne_and_not_mem_of_not_mem_cons he
    cases e with
    | reset => exact absurd rfl hne
    | poke a v => exact ih (s := s.poke a v) hr hlater
    | step =>
      rw [respondAll, respond, stepWith_halted hr]
      exact ih hr hlater

/-- Settles O50: what the events leave is the state with their pokes. -/
theorem haltedUntilReset : Obligations.HaltedUntilReset :=
  fun cfg events s hr he => ⟨s.pokeAll (events.filterMap PortEvent.poked), respondAll_halted cfg hr he,
    s.pokeAll_withMem _⟩

end Sys2Proof.Machine

/-! # Proofs about the instructions: NOP and HLT (41_system.md), and the frame rules of every instruction's statement -/

namespace Sys2Proof.Machine

section InstructionFrames

variable {i : Instr} {s t : State}

/-- Falling through by the length read off `ir` is an advance by the operand count and one. -/
theorem advancedBy_of_pc {m : Mnemonic} (h : t.pc = s.pc + instrLength s.ir) :
    AdvancedBy m (BitVec.ofNat 8 (m.format.operandCount + 1)) s t := by
  intro om hadm hir
  rw [h, hir, instrLength_of_admissible hadm]

/-- An instruction that is no control transfer advances by its operand count and one. -/
theorem exec_advancedBy (hi : ¬ Transfers i) (h : exec i s = .next t) :
    AdvancedBy i.mnemonic (BitVec.ofNat 8 (i.mnemonic.format.operandCount + 1)) s t :=
  advancedBy_of_pc (exec_pc_of_not_transfers hi h)

/-- No handler but CMP's changes `fl`. -/
theorem exec_keeps_fl (h : exec i s = .next t) (hi : ∀ ra rb, i ≠ .cmp ra rb) : t.fl = s.fl := by
  obtain hfl | ⟨ra, rb, -, hcmp, -⟩ := exec_fl h
  · exact hfl
  · exact absurd hcmp (hi ra rb)

/-- An instruction without a write among its data accesses keeps all of memory. -/
theorem exec_memKept (h : exec i s = .next t) (hi : ∀ a v, .write a v ∉ dataAccesses i s) : MemKept s t :=
  fun a => exec_keeps_unwritten h (hi a)

/-- No handler but HLT's changes the run state. -/
theorem exec_runKept (h : exec i s = .next t) (hi : i ≠ .hlt) : RunKept s t :=
  ⟨(exec_run h).trans (if_neg hi), exec_keeps_fault h⟩

/-- No handler but HLT's and PRN's changes the control fields. -/
theorem exec_controlKept (h : exec i s = .next t) (hhlt : i ≠ .hlt) (hprn : ∀ ra, i ≠ .prn ra) : ControlKept s t :=
  ⟨exec_keeps_ir h, exec_runKept h hhlt, exec_keeps_out h hprn⟩

end InstructionFrames

/-- Settles O16: NOP is no control transfer, and every frame rule of the handlers applies to it. -/
theorem nopOnlyAdvances : Obligations.NopOnlyAdvances := by
  intro s
  obtain ⟨t, h⟩ := exec_completes s .nop
  exact ⟨t, h, exec_advancedBy (i := .nop) not_false h, exec_regsKeptBut h, exec_keeps_fl h nofun, exec_memKept h nofun,
    exec_controlKept h nofun nofun⟩

/-- Settles O17: HLT is no control transfer, and every frame rule but the one of the run state applies to it. -/
theorem hltHaltsAndAdvances : Obligations.HltHaltsAndAdvances := by
  intro s
  obtain ⟨t, h⟩ := exec_completes s .hlt
  exact ⟨t, h, exec_run h, exec_keeps_fault h, exec_advancedBy (i := .hlt) not_false h, exec_regsKeptBut h,
    exec_keeps_fl h nofun, exec_memKept h nofun, exec_keeps_ir h, exec_keeps_out h nofun⟩

end Sys2Proof.Machine

/-! # Proofs about the instructions LDI and PRN (42_load_output.md) -/

namespace Sys2Proof.Machine

/-- LDI's register holds the immediate. -/
theorem exec_ldi_readReg {ra : RegIdx} {imm : Byte} {s t : State} (h : exec (.ldi ra imm) s = .next t) :
    t.readReg ra = imm := by
  cases h; simp

/-- Settles O18: the register is written, and the frame rules of the handlers keep all else but the program counter. -/
theorem ldiLoadsImmediate : Obligations.LdiLoadsImmediate := by
  intro ra imm s
  obtain ⟨t, h⟩ := exec_completes s (.ldi ra imm)
  exact ⟨t, h, exec_ldi_readReg h, exec_advancedBy (i := .ldi ra imm) not_false h, exec_regsKeptBut h,
    exec_keeps_fl h nofun, exec_memKept h nofun, exec_controlKept h nofun nofun⟩

/-- Settles O19: PRN's own rule gives the output history, and the frame rules of the handlers keep all else but the
program counter. -/
theorem prnEmitsRegister : Obligations.PrnEmitsRegister := by
  intro ra s
  obtain ⟨t, h⟩ := exec_completes s (.prn ra)
  exact ⟨t, h, exec_prn_out h, exec_advancedBy (i := .prn ra) not_false h, exec_regsKeptBut h,
    exec_keeps_fl h nofun, exec_memKept h nofun, exec_keeps_ir h, exec_runKept h nofun⟩

end Sys2Proof.Machine

/-! # Proofs about the ALU instructions ADD, MUL, AND and CMP (43_alu.md), and a CMP with the branch after it -/

namespace Sys2Proof.Machine

section AluHandlers

variable {ra rb : RegIdx} {s t : State}

/-! ### ADD, MUL and AND -/

/-- ADD's register A holds the sum of the two old values. -/
theorem exec_add_readReg (h : exec (.add ra rb) s = .next t) : t.readReg ra = s.readReg ra + s.readReg rb := by
  cases h; simp

/-- MUL's register A holds the product of the two old values. -/
theorem exec_mul_readReg (h : exec (.mul ra rb) s = .next t) : t.readReg ra = s.readReg ra * s.readReg rb := by
  cases h; simp

/-- AND's register A holds the bitwise and of the two old values. -/
theorem exec_and_readReg (h : exec (.and ra rb) s = .next t) : t.readReg ra = s.readReg ra &&& s.readReg rb := by
  cases h; simp

/-- ADD, MUL and AND change nothing but register A and the program counter, which advances by 3. -/
theorem exec_aluValue_frame {i : Instr} (hi : i = .add ra rb ∨ i = .mul ra rb ∨ i = .and ra rb)
    (h : exec i s = .next t) :
    AdvancedBy i.mnemonic 3 s t ∧ RegsKeptBut [ra] s t ∧ t.fl = s.fl ∧ MemKept s t ∧ ControlKept s t := by
  obtain rfl | rfl | rfl := hi
  all_goals
    exact ⟨exec_advancedBy not_false h, exec_regsKeptBut h, exec_keeps_fl h nofun, exec_memKept h nofun,
      exec_controlKept h nofun nofun⟩

/-! ### CMP -/

/-- CMP makes bit 0 of `fl` the answer to whether the values are equal, and keeps the other bits. -/
theorem exec_cmp_fl_getLsbD (h : exec (.cmp ra rb) s = .next t) (k : Nat) :
    t.fl.getLsbD k = if k = 0 then s.readReg ra == s.readReg rb else s.fl.getLsbD k := by
  cases h
  rw [State.advancePc_fl, State.applyAlu_cmp, State.setFlag_fl, setFlagByte_getLsbD _ _ _ _ (by decide)]

/-- CMP sets `EQ` exactly when the values are equal. -/
theorem exec_cmp_eqFlag (h : exec (.cmp ra rb) s = .next t) : t.eqFlag = (s.readReg ra == s.readReg rb) :=
  exec_cmp_fl_getLsbD h 0

/-! ### JEQ and JNE: the program counter by the value of `EQ` -/

/-- JEQ jumps when `EQ` is set. -/
theorem exec_jeq_pc (h : exec (.jeq ra) s = .next t) (heq : s.eqFlag = true) : t.pc = s.readReg ra := by
  cases h; simp [heq]

/-- JEQ falls through when `EQ` is clear. -/
theorem exec_jeq_advancedBy (h : exec (.jeq ra) s = .next t) (heq : s.eqFlag = false) : AdvancedBy .jeq 2 s t :=
  advancedBy_of_pc (by cases h; simp [heq])

/-- JNE jumps when `EQ` is clear. -/
theorem exec_jne_pc (h : exec (.jne ra) s = .next t) (heq : s.eqFlag = false) : t.pc = s.readReg ra := by
  cases h; simp [heq]

/-- JNE falls through when `EQ` is set. -/
theorem exec_jne_advancedBy (h : exec (.jne ra) s = .next t) (heq : s.eqFlag = true) : AdvancedBy .jne 2 s t :=
  advancedBy_of_pc (by cases h; simp [heq])

end AluHandlers

/-! ### The statements -/

/-- Settles O20: the sum of two bytes is modulo 256, and the frame is that of the three instructions with a value. -/
theorem addAddsModulo256 : Obligations.AddAddsModulo256 := by
  intro ra rb s
  obtain ⟨t, h⟩ := exec_completes s (.add ra rb)
  refine ⟨t, h, ?_, exec_aluValue_frame (.inl rfl) h⟩
  rw [exec_add_readReg h]
  exact BitVec.toNat_add _ _

/-- Settles O21: the product of two bytes is modulo 256, and the frame is that of the three instructions with a
value. -/
theorem mulMultipliesModulo256 : Obligations.MulMultipliesModulo256 := by
  intro ra rb s
  obtain ⟨t, h⟩ := exec_completes s (.mul ra rb)
  refine ⟨t, h, ?_, exec_aluValue_frame (.inr (.inl rfl)) h⟩
  rw [exec_mul_readReg h]
  exact BitVec.toNat_mul _ _

/-- Settles O22: bit by bit, with the frame of the three instructions with a value. -/
theorem andIsBitwise : Obligations.AndIsBitwise := by
  intro ra rb s
  obtain ⟨t, h⟩ := exec_completes s (.and ra rb)
  refine ⟨t, h, fun k => ?_, exec_aluValue_frame (.inr (.inr rfl)) h⟩
  rw [exec_and_readReg h, BitVec.getLsbD_and]

/-- Settles O23: the rule of CMP gives every bit of `fl`, and the frame rules of the handlers keep all else but the
program counter. -/
theorem cmpWritesEqOnly : Obligations.CmpWritesEqOnly := by
  intro ra rb s
  obtain ⟨t, h⟩ := exec_completes s (.cmp ra rb)
  refine ⟨t, h, ?_, fun k hk => ?_, exec_advancedBy (i := .cmp ra rb) not_false h, exec_regsKeptBut h,
    exec_memKept h nofun, exec_controlKept h nofun nofun⟩
  · rw [exec_cmp_fl_getLsbD h, if_pos rfl, beq_iff_eq]
  · rw [exec_cmp_fl_getLsbD h, if_neg hk]

/-- Settles O32: CMP keeps the register jumped to, and the `EQ` it leaves decides both branches. -/
theorem compareThenBranchIsExclusive : Obligations.CompareThenBranchIsExclusive := by
  intro om ra rb rx s t hadm h
  obtain ⟨u, hu⟩ := exec_completes (t.withIr (om .jeq)) (.jeq rx)
  obtain ⟨v, hv⟩ := exec_completes (t.withIr (om .jne)) (.jne rx)
  have hrx : t.readReg rx = s.readReg rx := exec_regsKeptBut h rx List.not_mem_nil
  have hflag : t.eqFlag = (s.readReg ra == s.readReg rb) := exec_cmp_eqFlag h
  refine ⟨u, v, hu, hv, fun heq => ?_, fun hne => ?_⟩
  · have hset : t.eqFlag = true := hflag.trans (beq_iff_eq.mpr heq)
    exact ⟨(exec_jeq_pc hu hset).trans hrx, exec_jne_advancedBy (s := t.withIr (om .jne)) hv hset om hadm rfl⟩
  · have hclear : t.eqFlag = false := hflag.trans (beq_eq_false_iff_ne.mpr hne)
    exact ⟨exec_jeq_advancedBy (s := t.withIr (om .jeq)) hu hclear om hadm rfl, (exec_jne_pc hv hclear).trans hrx⟩

end Sys2Proof.Machine

/-! # Proofs about the stack instructions PUSH and POP (44_stack.md), and a PUSH with the POP after it -/

namespace Sys2Proof.Machine

section StackHandlers

variable {ra : RegIdx} {s t : State}

/-- An instruction whose only written address is `stored` keeps every other byte of memory. -/
theorem exec_memKeptBut {i : Instr} {stored : Byte} (h : exec i s = .next t)
    (hi : ∀ a v, .write a v ∈ dataAccesses i s → a = stored) : MemKeptBut stored s t :=
  fun a ha => exec_keeps_unwritten h fun v hv => ha (hi a v hv)

/-! ### PUSH -/

/-- PUSH moves the stack pointer down by one. -/
theorem exec_push_readReg_sp (h : exec (.push ra) s = .next t) : t.readReg 7 = s.readReg 7 - 1 := by
  cases h; simp

/-- PUSH stores the register's old value below the old stack pointer. -/
theorem exec_push_readMem (h : exec (.push ra) s = .next t) : t.readMem (s.readReg 7 - 1) = s.readReg ra :=
  exec_writes h (List.mem_singleton_self _)

/-- PUSH changes no byte but the one below the old stack pointer. -/
theorem exec_push_memKeptBut (h : exec (.push ra) s = .next t) : MemKeptBut (s.readReg 7 - 1) s t :=
  exec_memKeptBut h fun _ _ hw => (Access.write.inj (List.mem_singleton.mp hw)).1

/-! ### POP -/

/-- POP loads the byte at the old stack pointer, into `R7` too. -/
theorem exec_pop_readReg (h : exec (.pop ra) s = .next t) : t.readReg ra = s.readMem (s.readReg 7) := by
  cases h; simp [State.pop_fst]

/-- POP into another register moves the stack pointer up by one. -/
theorem exec_pop_readReg_sp (h : exec (.pop ra) s = .next t) (hra : ra ≠ 7) : t.readReg 7 = s.readReg 7 + 1 := by
  cases h
  rw [State.advancePc_readReg, State.writeReg_readReg_other _ _ hra, State.pop_snd_readReg_sp]

end StackHandlers

/-! ### The statements -/

/-- Settles O24: PUSH's own rules give the stack pointer and the byte stored, and the frame rules of the handlers keep
all else but the program counter. -/
theorem pushStoresRegister : Obligations.PushStoresRegister := by
  intro ra s
  obtain ⟨t, h⟩ := exec_completes s (.push ra)
  exact ⟨t, h, exec_push_readReg_sp h, exec_push_readMem h, exec_advancedBy (i := .push ra) not_false h,
    exec_regsKeptBut h, exec_keeps_fl h nofun, exec_push_memKeptBut h, exec_controlKept h nofun nofun⟩

/-- Settles O25: POP's own rules give the two registers, and the frame rules of the handlers keep all else but the
program counter. -/
theorem popLoadsRegister : Obligations.PopLoadsRegister := by
  intro ra s
  obtain ⟨t, h⟩ := exec_completes s (.pop ra)
  refine ⟨t, h, exec_pop_readReg h, exec_pop_readReg_sp h, exec_advancedBy (i := .pop ra) not_false h,
    exec_regsKeptBut h, exec_keeps_fl h nofun, exec_memKept h fun a v hw => ?_, exec_controlKept h nofun nofun⟩
  cases List.mem_singleton.mp hw

/-- Settles O31: the POP reads where the PUSH stored, and moves the stack pointer back. -/
theorem pushThenPopRestores : Obligations.PushThenPopRestores := by
  intro ra rb s t hpush
  obtain ⟨u, hpop⟩ := exec_completes t (.pop rb)
  refine ⟨u, hpop, ?_, fun hrb => ?_⟩
  · rw [exec_pop_readReg hpop, exec_push_readReg_sp hpush, exec_push_readMem hpush]
  · have hsp : u.readReg 7 = s.readReg 7 := by
      rw [exec_pop_readReg_sp hpop hrb, exec_push_readReg_sp hpush, BitVec.sub_add_cancel]
    refine ⟨hsp, fun r hr => ?_⟩
    by_cases hr7 : r = 7
    · rw [hr7, hsp]
    · have hboth : RegsKeptBut ([7] ++ [7, rb]) s u := (exec_regsKeptBut hpush).trans (exec_regsKeptBut hpop)
      exact hboth r (by simpa [hr7] using hr)

end Sys2Proof.Machine

/-! # Proofs about the control transfers CALL, RET, JMP, JEQ and JNE (45_control.md), and a CALL with its RET -/

namespace Sys2Proof.Machine

section ControlHandlers

variable {ra : RegIdx} {s t : State}

/-! ### The frame -/

/-- JMP, JEQ and JNE change nothing but the program counter. -/
theorem exec_jump_frame {i : Instr} (hi : i = .jmp ra ∨ i = .jeq ra ∨ i = .jne ra) (h : exec i s = .next t) :
    RegsKeptBut [] s t ∧ t.fl = s.fl ∧ MemKept s t ∧ ControlKept s t := by
  obtain rfl | rfl | rfl := hi
  all_goals
    exact ⟨exec_regsKeptBut h, exec_keeps_fl h nofun, exec_memKept h nofun, exec_controlKept h nofun nofun⟩

/-! ### CALL -/

/-- CALL moves the stack pointer down by one. -/
theorem exec_call_readReg_sp (h : exec (.call ra) s = .next t) : t.readReg 7 = s.readReg 7 - 1 := by
  cases h; simp

/-- CALL jumps to the register as the push leaves it. -/
theorem exec_call_pc (h : exec (.call ra) s = .next t) :
    t.pc = if ra = 7 then s.readReg 7 - 1 else s.readReg ra := by
  cases h
  rw [State.advancePc_jump_pc, State.push_readReg]
  exact if_congr eq_comm rfl rfl

/-- CALL stores its return address below the old stack pointer. -/
theorem exec_call_readMem (h : exec (.call ra) s = .next t) : t.readMem (s.readReg 7 - 1) = s.pc + 2 :=
  exec_writes h (List.mem_singleton_self _)

/-- CALL changes no byte but the one below the old stack pointer. -/
theorem exec_call_memKeptBut (h : exec (.call ra) s = .next t) : MemKeptBut (s.readReg 7 - 1) s t :=
  exec_memKeptBut h fun _ _ hw => (Access.write.inj (List.mem_singleton.mp hw)).1

/-! ### RET and JMP -/

/-- RET jumps to the byte at the old stack pointer. -/
theorem exec_ret_pc (h : exec .ret s = .next t) : t.pc = s.readMem (s.readReg 7) := by
  cases h
  rw [State.advancePc_jump_pc, State.pop_fst]

/-- RET moves the stack pointer up by one. -/
theorem exec_ret_readReg_sp (h : exec .ret s = .next t) : t.readReg 7 = s.readReg 7 + 1 := by
  cases h; simp

/-- RET reads memory and writes none. -/
theorem exec_ret_memKept (h : exec .ret s = .next t) : MemKept s t :=
  exec_memKept h fun _ _ hw => by cases List.mem_singleton.mp hw

/-- JMP jumps to the register's value. -/
theorem exec_jmp_pc (h : exec (.jmp ra) s = .next t) : t.pc = s.readReg ra := by
  cases h; simp

end ControlHandlers

/-! ### The statements -/

/-- Settles O26: CALL's own rules give the stack pointer, the byte stored and the target, and the frame rules of the
handlers keep all else. -/
theorem callPushesReturnAddress : Obligations.CallPushesReturnAddress := by
  intro ra s
  obtain ⟨t, h⟩ := exec_completes s (.call ra)
  exact ⟨t, h, exec_call_readReg_sp h, exec_call_readMem h, exec_call_pc h, exec_regsKeptBut h,
    exec_keeps_fl h nofun, exec_call_memKeptBut h, exec_controlKept h nofun nofun⟩

/-- Settles O27: RET's own rules give the program counter and the stack pointer, and the frame rules of the handlers
keep all else. -/
theorem retPopsProgramCounter : Obligations.RetPopsProgramCounter := by
  intro s
  obtain ⟨t, h⟩ := exec_completes s .ret
  exact ⟨t, h, exec_ret_pc h, exec_ret_readReg_sp h, exec_regsKeptBut h, exec_keeps_fl h nofun,
    exec_ret_memKept h, exec_controlKept h nofun nofun⟩

/-- Settles O28: the target is the register's value, with the frame of the three jumps. -/
theorem jmpSetsProgramCounter : Obligations.JmpSetsProgramCounter := by
  intro ra s
  obtain ⟨t, h⟩ := exec_completes s (.jmp ra)
  exact ⟨t, h, exec_jmp_pc h, exec_jump_frame (.inl rfl) h⟩

/-- Settles O29: the program counter by the value of `EQ`, with the frame of the three jumps. -/
theorem conditionalJumpsTestEqBit : Obligations.ConditionalJumpsTestEqBit := by
  intro ra s
  constructor
  · obtain ⟨t, h⟩ := exec_completes s (.jeq ra)
    exact ⟨t, h, exec_jeq_pc h, exec_jeq_advancedBy h, exec_jump_frame (.inr (.inl rfl)) h⟩
  · obtain ⟨t, h⟩ := exec_completes s (.jne ra)
    exact ⟨t, h, exec_jne_pc h, exec_jne_advancedBy h, exec_jump_frame (.inr (.inr rfl)) h⟩

/-- Settles O30: the RET reads the byte that the CALL stored, and moves the stack pointer back. -/
theorem callAndRetAreSymmetric : Obligations.CallAndRetAreSymmetric := by
  intro ra s t u hcall hsp htop
  obtain ⟨v, hret⟩ := exec_completes u .ret
  refine ⟨v, hret, ?_, ?_⟩
  · rw [exec_ret_pc hret, htop, exec_call_readReg_sp hcall, exec_call_readMem hcall]
  · rw [exec_ret_readReg_sp hret, hsp, exec_call_readReg_sp hcall, BitVec.sub_add_cancel]

end Sys2Proof.Machine

/-! # Proofs about the exceptions (60_exceptions.md): the operand check, the status port, and the two faults -/

namespace Sys2Proof

/-! ### The operand check (30_encoding.md R84, 40_instruction_cycle.md R115) -/

theorem withReg_eq_none_iff {mode : RegIdxMode} {a : Byte} {f : RegIdx → Instr} :
    withReg mode a f = none ↔ regOperand mode a = none := Option.map_eq_none_iff

theorem withRegs_eq_none_iff {mode : RegIdxMode} {a b : Byte} {f : RegIdx → RegIdx → Instr} :
    withRegs mode a b f = none ↔ regOperand mode a = none ∨ regOperand mode b = none := by
  cases ha : regOperand mode a <;> cases hb : regOperand mode b <;> simp [withRegs, ha, hb]

/-- The operand bytes of a mnemonic are refused exactly when one in a register position is: byte A of every format but
F0, byte B of F2RR. -/
theorem instrOf_eq_none_iff {mode : RegIdxMode} {m : Mnemonic} {a b : Byte} :
    instrOf mode m a b = none ↔
      m.format ≠ .f0 ∧ regOperand mode a = none ∨ m.format = .f2rr ∧ regOperand mode b = none := by
  cases m
  case nop | hlt | ret => simp [instrOf, Mnemonic.format]
  case add | mul | and | cmp => simp [instrOf, Mnemonic.format, withRegs_eq_none_iff]
  all_goals simp [instrOf, Mnemonic.format, withReg_eq_none_iff]

end Sys2Proof

namespace Sys2Proof.Machine

/-! ### The status port -/

section Status

variable {cfg : Config} {s : State}

/-- A latched fault is shown first, whatever the run state (log 13). -/
theorem State.status_of_kind {k : FaultKind} (h : s.fault.kind = some k) : s.status = .fault k := by
  simp only [State.status, h]

/-- Everything the status can show: the kind of the latched fault, or, with none latched, the run state. -/
theorem State.status_cases (s : State) :
    (∃ k, s.fault ≠ .none ∧ s.fault.kind = some k ∧ s.status = .fault k) ∨
    (s.fault = .none ∧ s.run = .running ∧ s.status = .running) ∨
    (s.fault = .none ∧ s.run = .halted ∧ s.status = .halted) := by
  cases hf : s.fault
  case none => cases hr : s.run <;> simp [State.status, FaultLatch.kind, hf, hr]
  all_goals exact .inl ⟨_, nofun, rfl, State.status_of_kind (congrArg FaultLatch.kind hf)⟩

/-- The status shows a fault exactly when one of that kind is latched. -/
theorem State.status_eq_fault_iff {k : FaultKind} : s.status = .fault k ↔ s.fault.kind = some k := by
  obtain ⟨k', -, hk, hs⟩ | ⟨hf, -, hs⟩ | ⟨hf, -, hs⟩ := s.status_cases
  · simp [hs, hk]
  · simp [hs, hf, FaultLatch.kind]
  · simp [hs, hf, FaultLatch.kind]

theorem State.status_eq_running_iff : s.status = .running ↔ s.fault = .none ∧ s.run = .running := by
  obtain ⟨k, hf, -, hs⟩ | ⟨hf, hr, hs⟩ | ⟨-, hr, hs⟩ := s.status_cases
  · simp [hs, hf]
  · simp [hs, hf, hr]
  · simp [hs, hr]

theorem State.status_eq_halted_iff : s.status = .halted ↔ s.endedByHlt := by
  obtain ⟨k, hf, -, hs⟩ | ⟨-, hr, hs⟩ | ⟨hf, hr, hs⟩ := s.status_cases
  · simp [State.endedByHlt, hs, hf]
  · simp [State.endedByHlt, hs, hr]
  · simp [State.endedByHlt, hs, hf, hr]

/-- The out-of-range fault is never latched (60_exceptions.md R212). -/
theorem State.Inv.kind_ne_addressRange (hi : s.Inv cfg) : s.fault.kind ≠ some .addressRange := by
  have hl := hi.latch
  cases hf : s.fault <;> rw [hf] at hl
  case addressRange => exact hl.elim
  all_goals simp [FaultLatch.kind]

end Status

/-- Settles O51: the status shows the latch first and the run state without a fault, and under the invariant a running
machine has latched none. -/
theorem statusTellsHaltFromFault : Obligations.StatusTellsHaltFromFault := by
  intro cfg s hi
  refine ⟨State.status_eq_running_iff.trans ⟨And.right, fun hr => ⟨hi.fault_eq_none hr, hr⟩⟩,
    State.status_eq_halted_iff, fun _ => State.status_eq_fault_iff, ?_⟩
  exact fun h => hi.kind_ne_addressRange (State.status_eq_fault_iff.mp h)

/-! ### Taking a fault -/

section Faults

variable {cfg : Config} {s : State}

theorem stepWith_of_illegalOpcode (hr : s.run = .running) (hd : s.fetch.decoded cfg = .illegalOpcode) :
    stepWith cfg s = .next s.fetch.raiseIllegalOpcode := by
  rw [stepWith_running hr, runFetched, hd]

theorem stepWith_of_illegalOperand (hr : s.run = .running) (hd : s.fetch.decoded cfg = .illegalOperand) :
    stepWith cfg s = .next s.fetch.raiseIllegalOperand := by
  rw [stepWith_running hr, runFetched, hd]

end Faults

/-- A fault taken after the fetch halts the machine with its record and its status, and changes nothing else but
`ir` (60_exceptions.md R215). -/
theorem fetch_raise_precise {s t : State} {record : FaultLatch} {k : FaultKind} (ht : t = s.fetch.raise record)
    (hk : record.kind = some k) :
    t.run = .halted ∧ t.fault = record ∧ t.ir = s.readMem s.pc ∧ t.pc = s.pc ∧ RegsKeptBut [] s t ∧ t.fl = s.fl ∧
      MemKept s t ∧ t.out = s.out ∧ t.status = .fault k := by
  subst ht
  exact ⟨rfl, rfl, rfl, rfl, regsKeptBut_of_regs_eq rfl, rfl, fun _ => rfl, rfl, State.status_of_kind hk⟩

/-- Settles O46: a byte that no mnemonic has is decoded as an illegal opcode, and that fault is taken. -/
theorem illegalOpcodeHaltsPrecisely : Obligations.IllegalOpcodeHaltsPrecisely := by
  intro cfg s hr hop
  have hd : s.fetch.decoded cfg = .illegalOpcode := decode_illegalOpcode.mpr (decodeOpcode_none.mpr hop)
  exact ⟨_, stepWith_of_illegalOpcode hr hd, fetch_raise_precise rfl rfl⟩

/-- Settles O47: the opcode byte is found as its mnemonic and the operand check refuses the bytes, so that fault is
taken. -/
theorem illegalOperandHaltsPrecisely : Obligations.IllegalOperandHaltsPrecisely := by
  intro cfg s m hadm hmode hr hop hbad
  have hm : decodeOpcode cfg.opmap (s.readMem s.pc) = some m := (decodeOpcode_eq_some_iff hadm.distinct).mpr hop
  have hnone : instrOf cfg.regIdxMode m (s.readMem (s.pc + 1)) (s.readMem (s.pc + 2)) = none := by
    rwa [hmode, instrOf_eq_none_iff, regOperand_fault_none, regOperand_fault_none]
  have hd : s.fetch.decoded cfg = .illegalOperand := decode_illegalOperand.mpr ⟨m, hm, hnone⟩
  exact ⟨_, stepWith_of_illegalOperand hr hd, fetch_raise_precise rfl rfl⟩

end Sys2Proof.Machine

/-! # Proofs about reset and hazards (70_reset_and_hazards.md): the walk through zeroed memory -/

namespace Sys2Proof.Machine

/-- Under the default map the byte 0 is NOP's opcode, and the bytes after it have no say (30_encoding.md R87). -/
theorem decode_standard_zero (a b : Byte) : decode Config.standard 0 a b = .instr .nop :=
  decode_eq_instr (m := .nop) rfl rfl

/-- A running machine at a NOP advances by the length read off the fetched byte, and that byte stays in `ir`. -/
theorem stepWith_of_nop {cfg : Config} {s : State} (hr : s.run = .running) (hd : s.fetch.decoded cfg = .instr .nop) :
    stepWith cfg s = .next ((s.withPc (s.pc + instrLength (s.readMem s.pc))).withIr (s.readMem s.pc)) := by
  rw [stepWith_of_decoded hr hd, exec_nop]
  rfl

/-- Under the default map a running machine at a zero byte takes one step to the next address. -/
theorem step_of_readMem_pc_zero {s : State} (hr : s.run = .running) (hz : s.readMem s.pc = 0) :
    step s = .next ((s.withPc (s.pc + 1)).withIr 0) := by
  have hd : s.fetch.decoded Config.standard = .instr .nop := by
    rw [fetch_decoded, hz, decode_standard_zero]
  have hlen : instrLength 0 = 1 := by decide
  rw [step, stepWith_of_nop hr hd, hz, hlen]

/-- A run whose first step goes to `t` goes on from `t`. -/
theorem core_run_succ {s t : State} (n : Nat) (h : step s = .next t) : core.run (n + 1) s = core.run n t := by
  simp only [Host.Core.run, core, h]

/-- Settles O45, by induction on the number of steps from every state of the kind: the first step goes to the next
address, where the machine still runs over the same memory. -/
theorem zeroMemoryIsSlideOfNops : Obligations.ZeroMemoryIsSlideOfNops := by
  intro s n hr hz
  induction n generalizing s with
  | zero => simp [Host.Core.run]
  | succ n ih =>
    have hpc : s.pc + 1 + BitVec.ofNat 8 n = s.pc + BitVec.ofNat 8 (n + 1) := by bv_omega
    have hrest := ih ((s.withPc (s.pc + 1)).withIr 0) hr hz
    rw [core_run_succ n (step_of_readMem_pc_zero hr (hz s.pc)), hrest]
    simp only [State.withIr_pc, State.withPc_pc, State.withIr_ir, hpc, ite_self, Nat.succ_ne_zero, if_false]
    rfl

end Sys2Proof.Machine
